-- ==== Sys2Proof/Word.lean ====
section
/-! DEFINITION. The data word of the core: one unsigned byte (00_scope.md R5, R7). -/

namespace Sys2Proof

/-- The one data width of the core: a register, a memory cell, an address, the program counter, an operand and a
flags value are all 8 bits, unsigned (00_scope.md R5). -/
abbrev Byte := BitVec 8

end Sys2Proof
end

