-- ==== Sys2Proof/Syntax.lean ====
section
/-! DEFINITION. The instructions of the core: the 29 rows of 30_encoding.md R67, with their operand bytes. -/

namespace Sys2Proof

/-- The 29 mnemonics of 30_encoding.md R67, in the table's order. -/
inductive Mnemonic where
  | ldi | prn | push | pop | cmp | jmp | jeq | jne | call | ret | hlt
  | add | sub | mul | mod | inc | dec | and | or | xor | not | shl | shr
  | jgt | jlt | jle | jge | int | iret
  deriving DecidableEq, Repr

/-- The four instruction formats (30_encoding.md R62). -/
inductive Format where
  /-- Opcode only. -/
  | f0
  /-- Opcode, register A. -/
  | f1r
  /-- Opcode, register A, register B. -/
  | f2rr
  /-- Opcode, register A, immediate B. -/
  | f2ri
  deriving DecidableEq, Repr

/-- One instruction: a row of the opcode table with its operand BYTES. A register operand is the whole byte as it
stands in memory (30_encoding.md R64): the spec gives an operand of 8 or more a meaning (the fault
`InvalidRegisterIndex`, raised at dispatch), so such an instruction is a term of this type. `WellFormed.lean` says
which terms name registers that exist. -/
inductive Instr where
  /-- Load immediate (R100). -/
  | ldi (a imm : Byte)
  /-- Print numeric (R101). -/
  | prn (a : Byte)
  /-- Push (R112). -/
  | push (a : Byte)
  /-- Pop (R113). -/
  | pop (a : Byte)
  /-- Compare (R120). -/
  | cmp (a b : Byte)
  /-- Jump (R121). -/
  | jmp (a : Byte)
  /-- Jump if equal (R122). -/
  | jeq (a : Byte)
  /-- Jump if not equal (R123). -/
  | jne (a : Byte)
  /-- Call (R130). -/
  | call (a : Byte)
  /-- Return (R131). -/
  | ret
  /-- Halt (R132). -/
  | hlt
  /-- Add (R141). -/
  | add (a b : Byte)
  /-- Subtract (R142). -/
  | sub (a b : Byte)
  /-- Multiply, low 8 bits (R143). -/
  | mul (a b : Byte)
  /-- Remainder (R144). -/
  | mod (a b : Byte)
  /-- Increment (R145). -/
  | inc (a : Byte)
  /-- Decrement (R146). -/
  | dec (a : Byte)
  /-- Bitwise and (R147). -/
  | and (a b : Byte)
  /-- Bitwise or (R148). -/
  | or (a b : Byte)
  /-- Bitwise exclusive or (R149). -/
  | xor (a b : Byte)
  /-- Bitwise complement (R150). -/
  | not (a : Byte)
  /-- Shift left (R151). -/
  | shl (a b : Byte)
  /-- Shift right, logical (R152). -/
  | shr (a b : Byte)
  /-- Jump if greater (R170). -/
  | jgt (a : Byte)
  /-- Jump if less (R171). -/
  | jlt (a : Byte)
  /-- Jump if less or equal (R172). -/
  | jle (a : Byte)
  /-- Jump if greater or equal (R173). -/
  | jge (a : Byte)
  /-- Interrupt, always unsupported (R174). -/
  | int (a : Byte)
  /-- Return from interrupt, always unsupported (R175). -/
  | iret
  deriving DecidableEq, Repr

/-- The table row an instruction belongs to. -/
def Instr.mnemonic : Instr → Mnemonic
  | .ldi _ _ => .ldi
  | .prn _ => .prn
  | .push _ => .push
  | .pop _ => .pop
  | .cmp _ _ => .cmp
  | .jmp _ => .jmp
  | .jeq _ => .jeq
  | .jne _ => .jne
  | .call _ => .call
  | .ret => .ret
  | .hlt => .hlt
  | .add _ _ => .add
  | .sub _ _ => .sub
  | .mul _ _ => .mul
  | .mod _ _ => .mod
  | .inc _ => .inc
  | .dec _ => .dec
  | .and _ _ => .and
  | .or _ _ => .or
  | .xor _ _ => .xor
  | .not _ => .not
  | .shl _ _ => .shl
  | .shr _ _ => .shr
  | .jgt _ => .jgt
  | .jlt _ => .jlt
  | .jle _ => .jle
  | .jge _ => .jge
  | .int _ => .int
  | .iret => .iret

/-- The operand bytes in memory order, A before B (30_encoding.md R62, R63). -/
def Instr.operands : Instr → List Byte
  | .ldi a imm => [a, imm]
  | .ret | .hlt | .iret => []
  | .prn a | .push a | .pop a | .jmp a | .jeq a | .jne a | .call a => [a]
  | .inc a | .dec a | .not a | .jgt a | .jlt a | .jle a | .jge a | .int a => [a]
  | .cmp a b | .add a b | .sub a b | .mul a b | .mod a b => [a, b]
  | .and a b | .or a b | .xor a b | .shl a b | .shr a b => [a, b]

/-- The operand bytes that name registers, A before B: every operand but the immediate of LDI (30_encoding.md R62,
R65, R75). -/
def Instr.registerOperands : Instr → List Byte
  | .ldi a _ => [a]
  | .ret | .hlt | .iret => []
  | .prn a | .push a | .pop a | .jmp a | .jeq a | .jne a | .call a => [a]
  | .inc a | .dec a | .not a | .jgt a | .jlt a | .jle a | .jge a | .int a => [a]
  | .cmp a b | .add a b | .sub a b | .mul a b | .mod a b => [a, b]
  | .and a b | .or a b | .xor a b | .shl a b | .shr a b => [a, b]

end Sys2Proof
end

