-- ==== Sys2Proof/WellFormed.lean ====
section
/-! DEFINITION. Which instructions an assembler can express: every register operand names one of R0 to R7
(30_encoding.md R64, R76). An ill-formed instruction is no refusal: the core runs it into the fault
`InvalidRegisterIndex` (R75), or `UnsupportedOperation` where that comes first (60_exceptions.md R203). -/

namespace Sys2Proof

/-- "When 0 ≤ r ≤ 7, it names register `x[r]`" (30_encoding.md R64). -/
def registerByteOk (r : Byte) : Bool := decide (r.toNat < 8)

/-- Every register operand of the instruction's format names a register (log 10 on the operand of INT). -/
def Instr.wellFormed (i : Instr) : Bool := i.registerOperands.all registerByteOk

end Sys2Proof
end

