-- ==== Sys2Proof/Decode.lean ====
section
/-! DEFINITION. The encoding: the opcode table (30_encoding.md R67) written once, the decoder and the encoder over it. -/

namespace Sys2Proof

/-- The opcode byte of each row of 30_encoding.md R67. UNVERIFIED (log 5): the source lists no value, and the spec's
decision D1 adopts the LS-8 values. This is the one place that holds them. -/
def Mnemonic.opcode : Mnemonic → Byte
  | .ldi => 0x82
  | .prn => 0x47
  | .push => 0x45
  | .pop => 0x46
  | .cmp => 0xA7
  | .jmp => 0x54
  | .jeq => 0x55
  | .jne => 0x56
  | .call => 0x50
  | .ret => 0x11
  | .hlt => 0x01
  | .add => 0xA0
  | .sub => 0xA1
  | .mul => 0xA2
  | .mod => 0xA4
  | .inc => 0x65
  | .dec => 0x66
  | .and => 0xA8
  | .or => 0xAA
  | .xor => 0xAB
  | .not => 0x69
  | .shl => 0xAC
  | .shr => 0xAD
  | .jgt => 0x57
  | .jlt => 0x58
  | .jle => 0x59
  | .jge => 0x5A
  | .int => 0x52
  | .iret => 0x13

/-- The format of each row of 30_encoding.md R67 (R62). -/
def Mnemonic.format : Mnemonic → Format
  | .ldi => .f2ri
  | .ret | .hlt | .iret => .f0
  | .prn | .push | .pop | .jmp | .jeq | .jne | .call => .f1r
  | .inc | .dec | .not | .jgt | .jlt | .jle | .jge | .int => .f1r
  | .cmp | .add | .sub | .mul | .mod | .and | .or | .xor | .shl | .shr => .f2rr

/-- The rows of the opcode table, in its order. -/
def Mnemonic.all : List Mnemonic :=
  [.ldi, .prn, .push, .pop, .cmp, .jmp, .jeq, .jne, .call, .ret, .hlt] ++
  [.add, .sub, .mul, .mod, .inc, .dec, .and, .or, .xor, .not, .shl, .shr] ++
  [.jgt, .jlt, .jle, .jge, .int, .iret]

/-- How many operand bytes a format has (30_encoding.md R62). -/
def Format.operandCount : Format → Nat
  | .f0 => 0
  | .f1r => 1
  | .f2rr | .f2ri => 2

/-- How many operand bytes the instruction's format has. -/
def Mnemonic.operandCount (m : Mnemonic) : Nat := m.format.operandCount

/-- Bits 7:6 of an opcode byte: `n = (op & 0b11000000) >> 6` (30_encoding.md R61). -/
def operandCount (op : Byte) : Nat := ((op &&& 0b11000000) >>> 6).toNat

/-- `OPCODE_TABLE(op)`: the row whose whole opcode byte is `op` (30_encoding.md R68). -/
def lookupOpcode (op : Byte) : Option Mnemonic := Mnemonic.all.find? (fun m => m.opcode == op)

/-- The instruction of a row with operand bytes `a` and `b`; a format that has no such operand ignores it. -/
def Mnemonic.build (m : Mnemonic) (a b : Byte) : Instr :=
  match m with
  | .ldi => .ldi a b
  | .prn => .prn a
  | .push => .push a
  | .pop => .pop a
  | .cmp => .cmp a b
  | .jmp => .jmp a
  | .jeq => .jeq a
  | .jne => .jne a
  | .call => .call a
  | .ret => .ret
  | .hlt => .hlt
  | .add => .add a b
  | .sub => .sub a b
  | .mul => .mul a b
  | .mod => .mod a b
  | .inc => .inc a
  | .dec => .dec a
  | .and => .and a b
  | .or => .or a b
  | .xor => .xor a b
  | .not => .not a
  | .shl => .shl a b
  | .shr => .shr a b
  | .jgt => .jgt a
  | .jlt => .jlt a
  | .jle => .jle a
  | .jge => .jge a
  | .int => .int a
  | .iret => .iret

/-- Why bytes spell no instruction. -/
inductive DecodeError where
  /-- There is no opcode byte. -/
  | noBytes
  /-- Opcode bits 7:6 are `11` (30_encoding.md R70). -/
  | operandCountThree (op : Byte)
  /-- The opcode byte is not in the table (30_encoding.md R71). -/
  | unknownOpcode (op : Byte)
  /-- The bytes end before the instruction's last operand. -/
  | truncated (op : Byte)
  deriving DecidableEq, Repr

/-- The instruction of a row with the operand bytes its format takes from the bytes after the opcode (30_encoding.md
R62, R63), and the bytes after it. -/
def Mnemonic.takeOperands (m : Mnemonic) (rest : List Byte) : Except DecodeError (Instr × List Byte) :=
  match m.format, rest with
  | .f0, rest => .ok (m.build 0 0, rest)
  | .f1r, a :: rest => .ok (m.build a 0, rest)
  | .f2rr, a :: b :: rest => .ok (m.build a b, rest)
  | .f2ri, a :: b :: rest => .ok (m.build a b, rest)
  | _, _ => .error (.truncated m.opcode)

/-- Decoding a list of bytes: the instruction at its front and the bytes after it. The opcode byte alone fixes the
length (30_encoding.md R61) and the row (R68); an operand byte is never refused here (R64, R75 are dispatch checks). -/
def decode : List Byte → Except DecodeError (Instr × List Byte)
  | [] => .error .noBytes
  | op :: rest =>
    if operandCount op = 3 then .error (.operandCountThree op)
    else match lookupOpcode op with
      | none => .error (.unknownOpcode op)
      | some m => m.takeOperands rest

/-- The bytes of an instruction in memory order: opcode, A, B (20_memory.md R42, 30_encoding.md R62). -/
def encode (i : Instr) : List Byte := i.mnemonic.opcode :: i.operands

/-- An instruction's length in bytes, `1 + n` (30_encoding.md R61). -/
def Instr.length (i : Instr) : Nat := 1 + i.mnemonic.operandCount

/-- The three bytes, in memory order, of a word numbered as the opcode table numbers it: byte `k` is bits
`8k+7 .. 8k`, and every bit from `nbits` up is 0. -/
def tableWordBytes (nbits w : Nat) : Byte × Byte × Byte :=
  let v := w % 2 ^ nbits
  (BitVec.ofNat 8 v, BitVec.ofNat 8 (v / 2 ^ 8), BitVec.ofNat 8 (v / 2 ^ 16))

/-- What the decoder reads from an instruction whose bits are `w`, numbered as the opcode table numbers them. -/
def decodeTableWord (nbits w : Nat) : Option Instr :=
  match tableWordBytes nbits w with
  | (op, a, b) =>
    match decode [op, a, b] with
    | .ok (i, _) => some i
    | .error _ => none

end Sys2Proof
end

