-- ==== Sys2Proof/Config.lean ====
section
/-! DEFINITION. The three named parameters of 00_scope.md R6, and the fixed values of R5. -/

namespace Sys2Proof

/-- What happens when an instruction's bytes or its sequential successor lie past address 255
(00_scope.md R6, 20_memory.md R46). -/
inductive AddrOverflow where
  /-- The instruction raises `AddressOutOfRange`; the spec's default. -/
  | fault
  /-- Every instruction-fetch address and the successor are taken modulo 256. -/
  | wrap
  deriving DecidableEq, Repr

/-- The flags register before the first compare (00_scope.md R6, 10_state.md R31). -/
inductive FlReset where
  /-- `FL` holds no value until the first compare; the spec's default. -/
  | undefined
  /-- `FL = 0x00` after reset. -/
  | zero
  deriving DecidableEq, Repr

/-- Whether JGT, JLT, JLE and JGE execute (00_scope.md R6, 30_encoding.md R72). -/
inductive ExtBranches where
  /-- They raise `UnsupportedOperation`; the spec's default. -/
  | unimplemented
  /-- They execute as 45_unimplemented.md R170 to R173 say. -/
  | implemented
  deriving DecidableEq, Repr

/-- The parameters of one machine (00_scope.md R6). They are held in State as plain data that no step writes, so
that every statement is about every setting (log 1). -/
structure Config where
  addrOverflow : AddrOverflow
  flReset : FlReset
  extBranches : ExtBranches
  deriving DecidableEq, Repr

/-- The setting "that this spec adopts for the hardware" (00_scope.md R6). -/
def Config.default : Config := ⟨.fault, .undefined, .unimplemented⟩

/-- `SP_RESET` (00_scope.md R5): the stack pointer's reset value, and the bound of pop's guard (41_stack.md R111). -/
def spReset : Byte := 0xF4

/-- `MEMSIZE` (00_scope.md R5). -/
def memSize : Nat := 256

/-- The reset program counter (00_scope.md R5). -/
def pcReset : Byte := 0

/-- What a memory cell that nothing has written holds: 0 (20_memory.md R55). -/
def unlistedByte : Byte := 0

end Sys2Proof
end

