-- ==== Sys2Proof/Machine/State.lean ====
section
/-! DEFINITION. The state of the core as plain data (10_state.md), and its reset (70_reset_and_hazards.md R230). -/

namespace Sys2Proof.Machine

/-- The run state (10_state.md R32). -/
inductive RunState where
  | running | halted | faulted
  deriving DecidableEq, Repr

/-- The five kinds of fault the core raises (60_exceptions.md R200). A fault is a STATE of the core (run state
`Faulted` and a fault record), so raising one is a next state and no `Host.Outcome.fault` (log 3). -/
inductive FaultKind where
  | unsupportedOperation | divisionByZero | invalidRegisterIndex | addressOutOfRange | flagsUndefined
  deriving DecidableEq, Repr

/-- The fault record (10_state.md R34): the kind (its code is `FaultKind.code`, log 9), the address `p` of the faulting
instruction's opcode byte, the opcode byte, and the information value of 60_exceptions.md R200. The information is a
number, since `AddressOutOfRange` records `p + 1 + n`, 256 to 258 (log 18). -/
structure FaultRecord where
  kind : FaultKind
  p : Byte
  opcode : Byte
  info : Nat
  deriving DecidableEq, Repr

/-- The memory `M` (20_memory.md R40) as the cells that do not hold what an unlisted address reads as, addresses
strictly rising (`Memory.wf` in Machine/Memory.lean; log 19). -/
abbrev Memory := List Host.Cell

/-- Everything the spec gives the machine (10_state.md), and the parameters of 00_scope.md R6. -/
structure State where
  /-- The parameters of R6; no step writes them (log 1). -/
  config : Config
  /-- `x[0]` to `x[7]` (R20); `x[7]` is the stack pointer (R25). -/
  regs : Vector Byte 8
  /-- The program counter (R26). -/
  pc : Byte
  /-- `FL`, an optional byte: `none` is the spec's "no value" before the first compare (R29, R31; log 2). -/
  fl : Option Byte
  /-- The memory (R36). -/
  mem : Memory
  /-- The run state (R32). -/
  run : RunState
  /-- The fault record, `none` while empty (R34). -/
  faultRecord : Option FaultRecord
  /-- The output trace, oldest byte first (R33). -/
  output : List Byte
  /-- The `Loaded` status (R35). -/
  loaded : Bool
  deriving DecidableEq, Repr

/-- Why a step stops outside the machine's own states. It has no constructor: every fault the spec names is a state
the core enters (60_exceptions.md R201), every address is 8 bits, and a step that is not enabled does nothing
(70_reset_and_hazards.md R234). Safe (log 3). -/
inductive Fault where
  deriving DecidableEq, Repr

/-- Why an instruction has no meaning in the model. -/
inductive Refusal where
  /-- Raised by a dispatcher arm that gives its instruction no meaning yet. Safe. No arm raises it: all 29 rows have
  their meaning. -/
  | notModelled (mnemonic : String)
  deriving DecidableEq, Repr

/-- `FL` right after reset (10_state.md R31). -/
def resetFlags : FlReset → Option Byte
  | .undefined => none
  | .zero => some 0

/-- The registers right after reset: R0 to R6 are 0 and R7 is `SP_RESET` (10_state.md R24). -/
def resetRegs : Vector Byte 8 := #v[0, 0, 0, 0, 0, 0, 0, spReset]

/-- The machine with parameters `c` right after reset (70_reset_and_hazards.md R230). -/
def State.resetWith (c : Config) : State where
  config := c
  regs := resetRegs
  pc := pcReset
  fl := resetFlags c.flReset
  mem := []
  run := .running
  faultRecord := none
  output := []
  loaded := false

/-- The machine right after reset, with the parameters the spec adopts for the hardware (00_scope.md R6). -/
def State.reset : State := State.resetWith Config.default

end Sys2Proof.Machine
end

