-- ==== Sys2Proof/Machine/Memory.lean ====
section
/-! DEFINITION. Reading and writing one byte of the memory (20_memory.md R40 to R45), and its canonical form. -/

namespace Sys2Proof.Machine

/-- Every address is below 256 and above `lo`, addresses rise strictly, and no cell holds what an unlisted address
reads as. `lo` is one more than the previous cell's address. -/
def Memory.wfFrom : Nat → Memory → Bool
  | _, [] => true
  | lo, (k, v) :: m => decide (lo ≤ k) && decide (k < memSize) && decide (v ≠ unlistedByte) && Memory.wfFrom (k + 1) m

/-- The canonical form of a memory: equal memories are equal lists. -/
def Memory.wf (m : Memory) : Bool := Memory.wfFrom 0 m

/-- The byte at an address; an unlisted cell holds its reset value (20_memory.md R44, R55). -/
def Memory.readAt : Memory → Nat → Byte
  | [], _ => unlistedByte
  | (k, v) :: m, a => if k = a then v else Memory.readAt m a

/-- Storing a byte at an address, keeping the canonical form (20_memory.md R44). -/
def Memory.writeAt : Memory → Nat → Byte → Memory
  | [], a, v => if v = unlistedByte then [] else [(a, v)]
  | (k, w) :: m, a, v =>
    if a < k then
      if v = unlistedByte then (k, w) :: m else (a, v) :: (k, w) :: m
    else if a = k then
      if v = unlistedByte then m else (a, v) :: m
    else (k, w) :: Memory.writeAt m a v

/-- `MemRead(a, 1)` (00_scope.md R8). An 8-bit address always names a cell (20_memory.md R46). -/
def Memory.read (m : Memory) (a : Byte) : Byte := m.readAt a.toNat

/-- `MemWrite(a, 1, v)` (00_scope.md R8, 20_memory.md R45). -/
def Memory.write (m : Memory) (a v : Byte) : Memory := m.writeAt a.toNat v

end Sys2Proof.Machine
end

