-- ==== Sys2Proof/Machine/Ops.lean ====
section
/-! DEFINITION. The primitives of 00_scope.md R8 over State: registers, memory, the program counter, the output,
raising a fault, halting, and the stack primitives of 41_stack.md. -/

namespace Sys2Proof.Machine

/-- `u8(v) = v mod 256`, with the non-negative remainder (00_scope.md R8). -/
def u8 (v : Int) : Byte := BitVec.ofInt 8 v

/-- The index of the stack pointer (00_scope.md R5). -/
def spIndex : Fin 8 := 7

/-- `x[i]` (00_scope.md R8). -/
def State.reg (s : State) (i : Fin 8) : Byte := s.regs[i]

/-- `x[i] <- v` (00_scope.md R8, 10_state.md R22). No register is hard-wired (R20). -/
def State.setReg (s : State) (i : Fin 8) (v : Byte) : State := { s with regs := s.regs.set i v }

/-- `pc <- t` (00_scope.md R8). -/
def State.setPc (s : State) (t : Byte) : State := { s with pc := t }

/-- The write of `FL`, by compare only (10_state.md R30). -/
def State.setFlags (s : State) (f : Byte) : State := { s with fl := some f }

/-- `MemRead(a, 1)`. -/
def State.readMem (s : State) (a : Byte) : Byte := s.mem.read a

/-- `MemWrite(a, 1, v)`. -/
def State.writeMem (s : State) (a v : Byte) : State := { s with mem := s.mem.write a v }

/-- `Out(v)`: append a byte to the output trace (60_exceptions.md R215). -/
def State.out (s : State) (v : Byte) : State := { s with output := s.output ++ [v] }

/-- `halt` (43_call_return_halt.md R132). -/
def State.halt (s : State) : State := { s with run := .halted }

/-- The decoder's advance over an instruction with `n` operand bytes: `pc <- u8(p + 1 + n)` (10_state.md R27, R28). -/
def State.advance (s : State) (n : Nat) : State := s.setPc (u8 (s.pc.toNat + 1 + n))

/-- The numeric code of a fault kind (60_exceptions.md R200). -/
def FaultKind.code : FaultKind → Nat
  | .unsupportedOperation => 1
  | .divisionByZero => 2
  | .invalidRegisterIndex => 3
  | .addressOutOfRange => 4
  | .flagsUndefined => 5

/-- TAKING A FAULT, the one shared operation: `raise K(info)` writes the fault record and enters `Faulted`; nothing
else changes, and there is no saved state, handler or vector (60_exceptions.md R201, R205). `p` and `op` are the
address and the byte of the faulting instruction's opcode. There is no return from a fault beside it: only reset
leaves `Faulted` (R206). -/
def State.raise (s : State) (k : FaultKind) (p op : Byte) (info : Nat) : State :=
  { s with run := .faulted, faultRecord := some ⟨k, p, op, info⟩ }

/-- `push(v)` (41_stack.md R110): the stack pointer is decremented, wrapping, and `v` is written there. -/
def State.push (s : State) (v : Byte) : State :=
  let t := s.setReg spIndex (u8 ((s.reg spIndex).toNat - 1))
  t.writeMem (t.reg spIndex) v

/-- `pop()` (41_stack.md R111): the byte at the stack pointer, which is then incremented only if it is below
`SP_RESET`. -/
def State.pop (s : State) : Byte × State :=
  let v := s.readMem (s.reg spIndex)
  if (s.reg spIndex).toNat < spReset.toNat then (v, s.setReg spIndex (u8 ((s.reg spIndex).toNat + 1)))
  else (v, s)

end Sys2Proof.Machine
end

