-- ==== Sys2Proof/Machine/Operands.lean ====
section
/-! DEFINITION. The operand forms (30_encoding.md R62, R64, R65) and what is common to every instruction of a form:
the decoder's advance of `pc`, then the register checks, A before B (R69, R75). -/

namespace Sys2Proof.Machine

/-- What a meaning answers. -/
abbrev Result := Host.Outcome State Fault Refusal

/-- The register an operand byte names: the whole byte, never masked (30_encoding.md R64). -/
def registerOf (r : Byte) : Option (Fin 8) :=
  if h : r.toNat < 8 then some ⟨r.toNat, h⟩ else none

/-- A dispatch fault of an instruction `m` at address `p`: `t` is the state after the decoder's advance
(60_exceptions.md R202). -/
def State.dispatchFault (t : State) (m : Mnemonic) (p : Byte) (k : FaultKind) (info : Nat) : State :=
  t.raise k p m.opcode info

/-- Format F0: no operand. -/
def onF0 (m : Mnemonic) (s : State) (body : State → State) : Result :=
  .next (body (s.advance m.operandCount))

/-- One register operand (format F1R, and F2RI, whose operand B is never checked): the instruction's own behaviour
`body` runs at the advanced state, once the operand has passed the check of 30_encoding.md R75. -/
def onRegister (m : Mnemonic) (a : Byte) (s : State) (body : Fin 8 → State → State) : Result :=
  let t := s.advance m.operandCount
  match registerOf a with
  | none => .next (t.dispatchFault m s.pc .invalidRegisterIndex a.toNat)
  | some i => .next (body i t)

/-- Two register operands (format F2RR): A is checked before B. -/
def onRegisters (m : Mnemonic) (a b : Byte) (s : State) (body : Fin 8 → Fin 8 → State → State) : Result :=
  let t := s.advance m.operandCount
  match registerOf a with
  | none => .next (t.dispatchFault m s.pc .invalidRegisterIndex a.toNat)
  | some i =>
    match registerOf b with
    | none => .next (t.dispatchFault m s.pc .invalidRegisterIndex b.toNat)
    | some j => .next (body i j t)

/-- A declared opcode that is not enabled: `UnsupportedOperation(op)`, before any operand is checked
(30_encoding.md R69, R72). -/
def unsupported (m : Mnemonic) (s : State) : Result :=
  .next ((s.advance m.operandCount).dispatchFault m s.pc .unsupportedOperation m.opcode.toNat)

end Sys2Proof.Machine
end

