-- ==== Sys2Proof/Machine/Flags.lean ====
section
/-! DEFINITION. The flags byte (10_state.md R29, 42_compare_branch.md R120), the conditions the jumps test, and the
results of the twelve ALU operations (44_alu.md). -/

namespace Sys2Proof.Machine

/-- `FL.E`: bit 0. -/
def flagE (f : Byte) : Bool := f.getLsbD 0

/-- `FL.G`: bit 1. -/
def flagG (f : Byte) : Bool := f.getLsbD 1

/-- `FL.L`: bit 2. -/
def flagL (f : Byte) : Bool := f.getLsbD 2

/-- The flags byte with bits E, G and L as given and bits 7:3 zero. -/
def packFlags (e g l : Bool) : Byte :=
  (if e then 1 else 0) ||| (if g then 2 else 0) ||| (if l then 4 else 0)

/-- What compare writes: the unsigned comparison of the two registers (42_compare_branch.md R120). -/
def compareFlags (u w : Byte) : Byte :=
  packFlags (decide (u.toNat = w.toNat)) (decide (u.toNat > w.toNat)) (decide (u.toNat < w.toNat))

/-- A conditional jump of row `m` at address `p`, at the advanced state `t`: with no flags value it raises
`FlagsUndefined`; else it goes to `x[i]` when the condition holds and stays at the advanced `pc` when it does not
(42_compare_branch.md R122, R123, 45_unimplemented.md R170 to R173). -/
def State.branchIf (t : State) (m : Mnemonic) (p : Byte) (i : Fin 8) (cond : Byte → Bool) : State :=
  match t.fl with
  | none => t.dispatchFault m p .flagsUndefined 0
  | some f => if cond f then t.setPc (t.reg i) else t

/-- ADD (44_alu.md R141). -/
def aluAdd (u w : Byte) : Byte := u8 (u.toNat + w.toNat)

/-- SUB (44_alu.md R142). -/
def aluSub (u w : Byte) : Byte := u8 (u.toNat - w.toNat)

/-- MUL (44_alu.md R143). -/
def aluMul (u w : Byte) : Byte := u8 (u.toNat * w.toNat)

/-- The remainder of MOD for a divisor that is not 0 (44_alu.md R144). -/
def aluMod (u w : Byte) : Byte := u8 ((u.toNat % w.toNat : Nat) : Int)

/-- INC (44_alu.md R145). -/
def aluInc (u : Byte) : Byte := u8 (u.toNat + 1)

/-- DEC (44_alu.md R146). -/
def aluDec (u : Byte) : Byte := u8 (u.toNat - 1)

/-- AND (44_alu.md R147). -/
def aluAnd (u w : Byte) : Byte := u &&& w

/-- OR (44_alu.md R148). -/
def aluOr (u w : Byte) : Byte := u ||| w

/-- XOR (44_alu.md R149). -/
def aluXor (u w : Byte) : Byte := u ^^^ w

/-- NOT (44_alu.md R150): `255 - x[a]`. -/
def aluNot (u : Byte) : Byte := u8 (255 - u.toNat)

/-- SHL (44_alu.md R151): the count is the whole byte. -/
def aluShl (u w : Byte) : Byte := u8 ((u.toNat * 2 ^ w.toNat : Nat) : Int)

/-- SHR (44_alu.md R152): logical, the count is the whole byte. -/
def aluShr (u w : Byte) : Byte := u8 ((u.toNat / 2 ^ w.toNat : Nat) : Int)

/-- A one-operand ALU instruction: `x[a] <- f(x[a])` (44_alu.md R140). -/
def State.alu1 (t : State) (i : Fin 8) (f : Byte → Byte) : State := t.setReg i (f (t.reg i))

/-- A two-operand ALU instruction: `x[a] <- f(x[a], x[b])`, both read before the write (44_alu.md R140). -/
def State.alu2 (t : State) (i j : Fin 8) (f : Byte → Byte → Byte) : State := t.setReg i (f (t.reg i) (t.reg j))

end Sys2Proof.Machine
end

