-- ==== Sys2Proof/Machine/Alu.lean ====
section
/-! DEFINITION. The meanings of the twelve ALU instructions (44_alu.md); MOD alone can fault on its operands. -/

namespace Sys2Proof.Machine

/-- ADD (R141). -/
def execAdd (a b : Byte) (s : State) : Result :=
  onRegisters .add a b s fun i j t => t.alu2 i j aluAdd

/-- SUB (R142). -/
def execSub (a b : Byte) (s : State) : Result :=
  onRegisters .sub a b s fun i j t => t.alu2 i j aluSub

/-- MUL (R143). -/
def execMul (a b : Byte) (s : State) : Result :=
  onRegisters .mul a b s fun i j t => t.alu2 i j aluMul

/-- MOD (R144): a zero divisor raises `DivisionByZero` and leaves `x[a]`. -/
def execMod (a b : Byte) (s : State) : Result :=
  onRegisters .mod a b s fun i j t =>
    if t.reg j = 0 then t.dispatchFault .mod s.pc .divisionByZero 0 else t.alu2 i j aluMod

/-- INC (R145). -/
def execInc (a : Byte) (s : State) : Result :=
  onRegister .inc a s fun i t => t.alu1 i aluInc

/-- DEC (R146). -/
def execDec (a : Byte) (s : State) : Result :=
  onRegister .dec a s fun i t => t.alu1 i aluDec

/-- AND (R147). -/
def execAnd (a b : Byte) (s : State) : Result :=
  onRegisters .and a b s fun i j t => t.alu2 i j aluAnd

/-- OR (R148). -/
def execOr (a b : Byte) (s : State) : Result :=
  onRegisters .or a b s fun i j t => t.alu2 i j aluOr

/-- XOR (R149). -/
def execXor (a b : Byte) (s : State) : Result :=
  onRegisters .xor a b s fun i j t => t.alu2 i j aluXor

/-- NOT (R150). -/
def execNot (a : Byte) (s : State) : Result :=
  onRegister .not a s fun i t => t.alu1 i aluNot

/-- SHL (R151). -/
def execShl (a b : Byte) (s : State) : Result :=
  onRegisters .shl a b s fun i j t => t.alu2 i j aluShl

/-- SHR (R152). -/
def execShr (a b : Byte) (s : State) : Result :=
  onRegisters .shr a b s fun i j t => t.alu2 i j aluShr

end Sys2Proof.Machine
end

