-- ==== Sys2Proof/Machine/CallHalt.lean ====
section
/-! DEFINITION. The meanings of CALL, RET and HLT (43_call_return_halt.md). -/

namespace Sys2Proof.Machine

/-- CALL (R130): the target is read before the push, so CALL R7 jumps to the old `x[7]` (log 11); the advanced `pc` is
pushed. -/
def execCall (a : Byte) (s : State) : Result :=
  onRegister .call a s fun i t => (t.push t.pc).setPc (t.reg i)

/-- RET (R131): `pc <- pop()`. -/
def execRet (s : State) : Result :=
  onF0 .ret s fun t => t.pop.2.setPc t.pop.1

/-- HLT (R132): the run state becomes `Halted`. -/
def execHlt (s : State) : Result :=
  onF0 .hlt s State.halt

end Sys2Proof.Machine
end

