-- ==== Sys2Proof/Machine/CompareBranch.lean ====
section
/-! DEFINITION. The meanings of CMP, JMP, JEQ and JNE (42_compare_branch.md). -/

namespace Sys2Proof.Machine

/-- CMP (R120): all three flag bits are recomputed, bits 7:3 are 0. -/
def execCmp (a b : Byte) (s : State) : Result :=
  onRegisters .cmp a b s fun i j t => t.setFlags (compareFlags (t.reg i) (t.reg j))

/-- JMP (R121): `pc <- x[a]`. -/
def execJmp (a : Byte) (s : State) : Result :=
  onRegister .jmp a s fun i t => t.setPc (t.reg i)

/-- JEQ (R122): taken when E is 1. -/
def execJeq (a : Byte) (s : State) : Result :=
  onRegister .jeq a s fun i t => t.branchIf .jeq s.pc i flagE

/-- JNE (R123): taken when E is 0. -/
def execJne (a : Byte) (s : State) : Result :=
  onRegister .jne a s fun i t => t.branchIf .jne s.pc i fun f => !flagE f

end Sys2Proof.Machine
end

