-- ==== Sys2Proof/Machine/Declared.lean ====
section
/-! DEFINITION. The meanings of the six declared opcodes of 45_unimplemented.md: four conditional jumps that
`EXT_BRANCHES` enables, and INT and IRET, which always fault. -/

namespace Sys2Proof.Machine

/-- A jump that only `EXT_BRANCHES = Implemented` enables; the check comes before the register check (R170 to R173). -/
def extBranch (m : Mnemonic) (a : Byte) (s : State) (cond : Byte → Bool) : Result :=
  match s.config.extBranches with
  | .unimplemented => unsupported m s
  | .implemented => onRegister m a s fun i t => t.branchIf m s.pc i cond

/-- JGT (R170): taken when G is 1. -/
def execJgt (a : Byte) (s : State) : Result :=
  extBranch .jgt a s flagG

/-- JLT (R171): taken when L is 1. -/
def execJlt (a : Byte) (s : State) : Result :=
  extBranch .jlt a s flagL

/-- JLE (R172): taken when L or E is 1. -/
def execJle (a : Byte) (s : State) : Result :=
  extBranch .jle a s (fun f => flagL f || flagE f)

/-- JGE (R173): taken when G or E is 1. -/
def execJge (a : Byte) (s : State) : Result :=
  extBranch .jge a s (fun f => flagG f || flagE f)

/-- INT (R174): always `UnsupportedOperation`; the operand byte is fetched, never checked, and unused. -/
def execInt (_a : Byte) (s : State) : Result :=
  unsupported .int s

/-- IRET (R175): always `UnsupportedOperation`; it pops nothing and restores nothing. -/
def execIret (s : State) : Result :=
  unsupported .iret s

end Sys2Proof.Machine
end

