-- ==== Sys2Proof/Machine/LoadPrint.lean ====
section
/-! DEFINITION. The meanings of LDI and PRN (40_load_print.md). -/

namespace Sys2Proof.Machine

/-- LDI (R100): `x[a] <- b`. The immediate is never checked. -/
def execLdi (a imm : Byte) (s : State) : Result :=
  onRegister .ldi a s fun i t => t.setReg i imm

/-- PRN (R101): `Out(x[a])`. -/
def execPrn (a : Byte) (s : State) : Result :=
  onRegister .prn a s fun i t => t.out (t.reg i)

end Sys2Proof.Machine
end

