-- ==== Sys2Proof/Machine/Stack.lean ====
section
/-! DEFINITION. The meanings of PUSH and POP (41_stack.md). -/

namespace Sys2Proof.Machine

/-- PUSH (R112): the register is read before the stack pointer is decremented, so PUSH R7 pushes the old value
(log 11). -/
def execPush (a : Byte) (s : State) : Result :=
  onRegister .push a s fun i t => t.push (t.reg i)

/-- POP (R113): the destination is written after the stack pointer, so POP R7 leaves the popped byte (log 11). -/
def execPop (a : Byte) (s : State) : Result :=
  onRegister .pop a s fun i t => t.pop.2.setReg i t.pop.1

end Sys2Proof.Machine
end

