-- ==== Sys2Proof/Machine/Dispatch.lean ====
section
/-! DEFINITION. The dispatcher (30_encoding.md R68): one arm per instruction, each a call of its own meaning. `exec i s`
is the part of the step after decoding, at the state `s` whose `pc` is still the instruction's own address `p`: every
meaning first makes the decoder's advance of `pc` (R27, R69; log 6). -/

namespace Sys2Proof.Machine

def exec (i : Instr) (s : State) : Host.Outcome State Fault Refusal :=
  match i with
  | .ldi a imm => Sys2Proof.Machine.execLdi a imm s
  | .prn a => Sys2Proof.Machine.execPrn a s
  | .push a => Sys2Proof.Machine.execPush a s
  | .pop a => Sys2Proof.Machine.execPop a s
  | .cmp a b => Sys2Proof.Machine.execCmp a b s
  | .jmp a => Sys2Proof.Machine.execJmp a s
  | .jeq a => Sys2Proof.Machine.execJeq a s
  | .jne a => Sys2Proof.Machine.execJne a s
  | .call a => Sys2Proof.Machine.execCall a s
  | .ret => Sys2Proof.Machine.execRet s
  | .hlt => Sys2Proof.Machine.execHlt s
  | .add a b => Sys2Proof.Machine.execAdd a b s
  | .sub a b => Sys2Proof.Machine.execSub a b s
  | .mul a b => Sys2Proof.Machine.execMul a b s
  | .mod a b => Sys2Proof.Machine.execMod a b s
  | .inc a => Sys2Proof.Machine.execInc a s
  | .dec a => Sys2Proof.Machine.execDec a s
  | .and a b => Sys2Proof.Machine.execAnd a b s
  | .or a b => Sys2Proof.Machine.execOr a b s
  | .xor a b => Sys2Proof.Machine.execXor a b s
  | .not a => Sys2Proof.Machine.execNot a s
  | .shl a b => Sys2Proof.Machine.execShl a b s
  | .shr a b => Sys2Proof.Machine.execShr a b s
  | .jgt a => Sys2Proof.Machine.execJgt a s
  | .jlt a => Sys2Proof.Machine.execJlt a s
  | .jle a => Sys2Proof.Machine.execJle a s
  | .jge a => Sys2Proof.Machine.execJge a s
  | .int a => Sys2Proof.Machine.execInt a s
  | .iret => Sys2Proof.Machine.execIret s

end Sys2Proof.Machine
end

