-- ==== Sys2Proof/Machine/Fetch.lean ====
section
/-! DEFINITION. Fetching and decoding (30_encoding.md R63, R69, R70, R71; 20_memory.md R46). -/

namespace Sys2Proof.Machine

/-- "A step is enabled only when the run state is `Running` and `Loaded = 1`" (30_encoding.md R69). -/
def State.stepEnabled (s : State) : Bool := decide (s.run = .running) && s.loaded

/-- The opcode byte and the `n` operand bytes from `pc` on, their addresses modulo 256 (30_encoding.md R63); under
`ADDR_OVERFLOW = Fault` none is past 255 when they are read (20_memory.md R46). -/
def State.instrBytes (s : State) (n : Nat) : List Byte :=
  (List.range (n + 1)).map fun (k : Nat) => s.readMem (u8 (s.pc.toNat + k))

/-- Whether the instruction's bytes or its successor pass address 255 and `ADDR_OVERFLOW = Fault`
(20_memory.md R46). -/
def State.overflows (s : State) (n : Nat) : Bool :=
  decide (s.config.addrOverflow = .fault) && decide (255 < s.pc.toNat + 1 + n)

/-- The first half of the step (30_encoding.md R69), as far as the opcode table: the instruction at `pc`, or the
state after the fault that fetching it raises. A decode fault leaves `pc`; an unlisted opcode faults after the
decoder's advance (R70, R71, 60_exceptions.md R202). -/
def State.fetch (s : State) : Except State Instr :=
  let p := s.pc
  let op := s.readMem p
  let n := operandCount op
  if n = 3 then .error (s.raise .unsupportedOperation p op op.toNat)
  else if s.overflows n then .error (s.raise .addressOutOfRange p op (p.toNat + 1 + n))
  else match decode (s.instrBytes n) with
    | .ok (i, _) => .ok i
    | .error _ => .error ((s.advance n).raise .unsupportedOperation p op op.toNat)

/-- The state with three bytes stored where the next step fetches its instruction, with a program loaded and the core
running: all that the fetch needs (log 7). -/
def State.placeInstr (s : State) (op a b : Byte) : State :=
  { s with
    mem := ((s.mem.write s.pc op).write (u8 (s.pc.toNat + 1)) a).write (u8 (s.pc.toNat + 2)) b
    run := .running
    loaded := true }

end Sys2Proof.Machine
end

