-- ==== Sys2Proof/Machine/Step.lean ====
section
/-! DEFINITION. One step of the core (30_encoding.md R69) and the word the host places for it. -/

namespace Sys2Proof.Machine

/-- One whole instruction: fetch and decode, then dispatch. A step that is not enabled does nothing
(70_reset_and_hazards.md R234; log 4). -/
def step (s : State) : Host.Outcome State Fault Refusal :=
  if s.stepEnabled then
    match s.fetch with
    | .error t => .next t
    | .ok i => exec i s
  else .next s

/-- `s` with the instruction whose bits are `w` stored where `step` fetches its next instruction. It stands for the
host's `load` (70_reset_and_hazards.md R231), which is how a program comes to run from reset (log 7). -/
def State.withFetchWord (s : State) (nbits w : Nat) : State :=
  match tableWordBytes nbits w with
  | (op, a, b) => s.placeInstr op a b

end Sys2Proof.Machine
end

