-- ==== Sys2Proof/Machine/Assembler.lean ====
section
/-! DEFINITION. The assembler line of 30_encoding.md R76: `MNEMONIC`, `MNEMONIC Ra`, `MNEMONIC Ra, Rb` or
`LDI Ra, imm`. There are no pseudo-instructions (R77). -/

namespace Sys2Proof.Machine

/-- The mnemonic's spelling (30_encoding.md R67). -/
def mnemonicText : Mnemonic → String
  | .ldi => "LDI" | .prn => "PRN" | .push => "PUSH" | .pop => "POP" | .cmp => "CMP"
  | .jmp => "JMP" | .jeq => "JEQ" | .jne => "JNE" | .call => "CALL" | .ret => "RET" | .hlt => "HLT"
  | .add => "ADD" | .sub => "SUB" | .mul => "MUL" | .mod => "MOD" | .inc => "INC" | .dec => "DEC"
  | .and => "AND" | .or => "OR" | .xor => "XOR" | .not => "NOT" | .shl => "SHL" | .shr => "SHR"
  | .jgt => "JGT" | .jlt => "JLT" | .jle => "JLE" | .jge => "JGE" | .int => "INT" | .iret => "IRET"

/-- The source's long name of an instruction that has one of its own; the ALU names are the same (30_encoding.md
R76). -/
def sourceName : Mnemonic → Option String
  | .ldi => some "LoadImmediate"
  | .prn => some "PrintNumeric"
  | .push => some "Push"
  | .pop => some "Pop"
  | .cmp => some "Compare"
  | .jmp => some "Jump"
  | .jeq => some "Jump-if-equal"
  | .jne => some "Jump-if-not-equal"
  | .call => some "Call"
  | .ret => some "Return"
  | .hlt => some "Halt"
  | .add | .sub | .mul | .mod | .inc | .dec => none
  | .and | .or | .xor | .not | .shl | .shr => none
  | .jgt | .jlt | .jle | .jge | .int | .iret => none

/-- The blanks that may stand around the parts of a line (log 15). -/
def isBlank (c : Char) : Bool := c == ' ' || c == '\t'

/-- Blanks taken off both ends. -/
def trimBlanks (l : List Char) : List Char := ((l.dropWhile isBlank).reverse.dropWhile isBlank).reverse

/-- The parts of a text between its commas. -/
def splitCommas : List Char → List (List Char)
  | [] => [[]]
  | c :: cs =>
    if c = ',' then [] :: splitCommas cs
    else match splitCommas cs with
      | [] => [[c]]
      | l :: ls => (c :: l) :: ls

/-- The value of a digit, below 16. -/
def digitValue (c : Char) : Option Nat :=
  if '0' ≤ c ∧ c ≤ '9' then some (c.toNat - '0'.toNat)
  else if 'a' ≤ c ∧ c ≤ 'f' then some (c.toNat - 'a'.toNat + 10)
  else if 'A' ≤ c ∧ c ≤ 'F' then some (c.toNat - 'A'.toNat + 10)
  else none

/-- The value of digits in a base, going on from `acc`. -/
def digitsValue (base : Nat) : Nat → List Char → Option Nat
  | acc, [] => some acc
  | acc, c :: cs =>
    (digitValue c).bind fun d => if d < base then digitsValue base (base * acc + d) cs else none

/-- A number with at least one digit. -/
def numeral (base : Nat) (ds : List Char) : Option Nat := if ds = [] then none else digitsValue base 0 ds

/-- An immediate: decimal, or with `0x` or `0b`, and 0 to 255 (30_encoding.md R76). -/
def parseImmediate (l : List Char) : Option Byte :=
  let v := match l with
    | '0' :: 'x' :: ds => numeral 16 ds
    | '0' :: 'b' :: ds => numeral 2 ds
    | ds => numeral 10 ds
  v.bind fun n => if n < 256 then some (BitVec.ofNat 8 n) else none

/-- A register `R0` to `R7`, encoded as the operand byte `k` (30_encoding.md R76). -/
def parseRegister : List Char → Option Byte
  | ['R', c] => (digitValue c).bind fun k => if k < 8 then some (BitVec.ofNat 8 k) else none
  | _ => none

/-- The mnemonic a name spells. -/
def parseMnemonic (name : List Char) : Option Mnemonic :=
  Mnemonic.all.find? fun m => (mnemonicText m).toList == name

/-- The instruction of a mnemonic with the operand texts its format takes. -/
def parseOperands (m : Mnemonic) (ops : List (List Char)) : Option Instr :=
  match m.format, ops with
  | .f0, [] => some (m.build 0 0)
  | .f1r, [a] => (parseRegister a).map fun ra => m.build ra 0
  | .f2rr, [a, b] => (parseRegister a).bind fun ra => (parseRegister b).map fun rb => m.build ra rb
  | .f2ri, [a, b] => (parseRegister a).bind fun ra => (parseImmediate b).map fun v => m.build ra v
  | _, _ => none

/-- The instruction an assembler line spells (30_encoding.md R76). -/
def assembleLine (line : List Char) : Option Instr :=
  let l := trimBlanks line
  let name := l.takeWhile fun c => !isBlank c
  let rest := trimBlanks (l.dropWhile fun c => !isBlank c)
  (parseMnemonic name).bind fun m =>
    parseOperands m (if rest = [] then [] else (splitCommas rest).map trimBlanks)

/-- `Rk` for an operand byte `k`. -/
def registerText (r : Byte) : List Char := 'R' :: Nat.toDigits 10 r.toNat

/-- The assembler line of an instruction; an immediate is written in decimal. -/
def lineOf (i : Instr) : List Char :=
  let name := (mnemonicText i.mnemonic).toList
  match i.mnemonic.format, i.operands with
  | .f0, _ => name
  | .f1r, [a] => name ++ ' ' :: registerText a
  | .f2rr, [a, b] => name ++ ' ' :: registerText a ++ [',', ' '] ++ registerText b
  | .f2ri, [a, b] => name ++ ' ' :: registerText a ++ [',', ' '] ++ Nat.toDigits 10 b.toNat
  | _, _ => name

end Sys2Proof.Machine
end

