-- ==== Sys2Proof/Machine/HostPort.lean ====
section
/-! DEFINITION. The host's transactions other than stepping (70_reset_and_hazards.md R230 to R237): reset, load,
inspect, output, and the program text format of R233. -/

namespace Sys2Proof.Machine

/-- Why a load is turned away. These are the loader's errors, not faults of the core (60_exceptions.md R209). -/
inductive LoadError where
  /-- `LoadFailure`: no bytes, or more than memory holds (R231). -/
  | loadFailure
  /-- `MalformedProgramLine`: a line of the program text does not parse (R233). -/
  | malformedProgramLine
  /-- What the model answers for a load when the core is not just out of reset. DESIGN CHOICE (log 8): R231 says only that
  such a load is refused with state unchanged, and R235 lists only accepted or `LoadFailure`; that the reply is a third
  value is the model's. -/
  | notJustReset
  deriving DecidableEq, Repr

/-- `reset()` (R230): every piece of state at its reset value; the parameters are the machine's own. -/
def State.resetByHost (s : State) : State := State.resetWith s.config

/-- Bytes copied to consecutive addresses from `a` up, in order (R231). -/
def Memory.writeList : Memory → Nat → List Byte → Memory
  | m, _, [] => m
  | m, a, b :: bs => Memory.writeList (m.writeAt a b) (a + 1) bs

/-- `load(bytes)` (R231): the bytes go to addresses 0 up, and `Loaded` becomes 1. Otherwise the load is refused and
the state is as it was; the reply to a second load is the model's choice (log 8). "Just out of reset" is
read as `Loaded = 0`: no step is enabled before that (R232; log 8). -/
def State.load (s : State) (bytes : List Byte) : Except LoadError State :=
  if s.loaded then .error .notJustReset
  else if bytes.length = 0 ∨ memSize < bytes.length then .error .loadFailure
  else .ok { s with mem := s.mem.writeList 0 bytes, loaded := true }

/-- What `inspect()` shows the host (R235). -/
structure Inspection where
  x : List Byte
  pc : Byte
  fl : Option Byte
  m : List Byte
  run : RunState
  faultRecord : Option FaultRecord
  loaded : Bool
  deriving DecidableEq, Repr

/-- `inspect()` (R235, 60_exceptions.md R212): it reads and changes nothing. -/
def State.inspect (s : State) : Inspection where
  x := s.regs.toList
  pc := s.pc
  fl := s.fl
  m := (List.range memSize).map fun a => s.mem.readAt a
  run := s.run
  faultRecord := s.faultRecord
  loaded := s.loaded

/-- The numeric fault code the host reads, if there is a fault (60_exceptions.md R200). -/
def State.faultCode (s : State) : Option Nat := s.faultRecord.map fun r => r.kind.code

/-- The host's rendering of the output: each byte as its unsigned decimal value, one line each (R235,
60_exceptions.md R215). -/
def State.outputLines (s : State) : List String := s.output.map fun b => toString b.toNat

/-- White space taken off both ends of a line. -/
def trimLine (l : List Char) : List Char :=
  ((l.dropWhile Char.isWhitespace).reverse.dropWhile Char.isWhitespace).reverse

/-- A program line without its comment and the white space around what is left (R233; log 14). -/
def stripLine (l : List Char) : List Char := trimLine (l.takeWhile (· ≠ '#'))

/-- One binary digit. -/
def binaryDigit (c : Char) : Option Nat :=
  if c = '0' then some 0 else if c = '1' then some 1 else none

/-- The value of binary digits, the first the most significant, going on from `acc`. -/
def binaryValue : Nat → List Char → Option Nat
  | acc, [] => some acc
  | acc, c :: cs => (binaryDigit c).bind fun d => binaryValue (2 * acc + d) cs

/-- A stripped line that is not empty: exactly 8 binary digits, the first bit 7 (R233). -/
def lineByte (l : List Char) : Except LoadError Byte :=
  if l.length = 8 then
    match binaryValue 0 l with
    | some v => .ok (BitVec.ofNat 8 v)
    | none => .error .malformedProgramLine
  else .error .malformedProgramLine

/-- The bytes of program lines, in order; an empty line is skipped (R233). -/
def linesBytes : List (List Char) → Except LoadError (List Byte)
  | [] => .ok []
  | l :: ls =>
    if stripLine l = [] then linesBytes ls
    else do
      let b ← lineByte (stripLine l)
      let bs ← linesBytes ls
      return b :: bs

/-- A text cut at its line ends. -/
def splitLines : List Char → List (List Char)
  | [] => [[]]
  | c :: cs =>
    if c = '\n' then [] :: splitLines cs
    else match splitLines cs with
      | [] => [[c]]
      | l :: ls => (c :: l) :: ls

/-- The external loader's reading of a program text (R233): the bytes to hand to `load`, `MalformedProgramLine` if any
line does not parse, `LoadFailure` if no line gives a byte. -/
def programBytes (text : List Char) : Except LoadError (List Byte) := do
  let bytes ← linesBytes (splitLines text)
  if bytes = [] then .error .loadFailure else return bytes

/-- Loading a program text. -/
def State.loadText (s : State) (text : List Char) : Except LoadError State := do
  let bytes ← programBytes text
  s.load bytes

/-- The program line of a byte: its 8 bits, bit 7 first (R233). -/
def programLine (b : Byte) : List Char :=
  [7, 6, 5, 4, 3, 2, 1, 0].map fun k => if b.getLsbD k then '1' else '0'

/-- The program text of a byte sequence, one line a byte. -/
def programText : List Byte → List Char
  | [] => []
  | b :: bs => programLine b ++ '\n' :: programText bs

end Sys2Proof.Machine
end

