-- ==== Sys2Proof/Machine/Run.lean ====
section
/-! DEFINITION. The host's `run()` (70_reset_and_hazards.md R234), bounded by a number of steps so that it is a total
function: a program may run forever (60_exceptions.md R216). -/

namespace Sys2Proof.Machine

/-- `run()`: steps while a step is enabled, and the state it returns in; `none` when it has not returned after `fuel`
steps. The bound is the model's, not the core's (log 17). -/
def State.runFor : Nat → State → Option State
  | 0, s => if s.stepEnabled then none else some s
  | fuel + 1, s =>
    if s.stepEnabled then
      match step s with
      | .next t => State.runFor fuel t
      | .fault _ => none
      | .refused _ => none
    else some s

/-- `k` calls of `step()`. -/
def State.stepTimes : Nat → State → Option State
  | 0, s => some s
  | k + 1, s =>
    match step s with
    | .next t => State.stepTimes k t
    | .fault _ => none
    | .refused _ => none

/-- What `run()` gives the host back: the final run state, and the fault record if `Faulted` (R235). -/
def State.runReport (s : State) : RunState × Option FaultRecord :=
  (s.run, if s.run = .faulted then s.faultRecord else none)

end Sys2Proof.Machine
end

