-- ==== Sys2Proof/Safety.lean ====
section
/-! DEFINITION. The terms the statements use: what two states have in common, what a raised fault leaves, when a run
ends well, and the invariant of the machine. -/

namespace Sys2Proof.Machine

/-- Every register outside `ks` is as it was. -/
def regsKept (ks : List (Fin 8)) (s t : State) : Prop := ∀ k, k ∉ ks → t.reg k = s.reg k

/-- Every byte of memory whose address is outside `stored` reads as it did. -/
def memKept (stored : List Byte) (s t : State) : Prop := ∀ a, a ∉ stored → t.readMem a = s.readMem a

/-- `FL` is as it was. -/
def flagsKept (s t : State) : Prop := t.fl = s.fl

/-- The output trace is as it was. -/
def outputKept (s t : State) : Prop := t.output = s.output

/-- The run state, the fault record, `Loaded` and the parameters are as they were. -/
def statusKept (s t : State) : Prop :=
  t.run = s.run ∧ t.faultRecord = s.faultRecord ∧ t.loaded = s.loaded ∧ t.config = s.config

/-- `t` is `s` after a fault of kind `k` with opcode byte `op` and information `info`, raised at `s`'s own `pc`, which
is left at `pc'`: the record is written, the run state is `Faulted`, and nothing else changes (60_exceptions.md R201,
R202). -/
structure FaultedFrom (s t : State) (k : FaultKind) (op : Byte) (info : Nat) (pc' : Byte) : Prop where
  run : t.run = .faulted
  record : t.faultRecord = some ⟨k, s.pc, op, info⟩
  pc : t.pc = pc'
  regs : regsKept [] s t
  flags : flagsKept s t
  mem : memKept [] s t
  output : outputKept s t
  loaded : t.loaded = s.loaded
  config : t.config = s.config

/-- Executing `i` at `s` raises a dispatch fault: a next state, `pc` past the instruction (60_exceptions.md R202). -/
def raisesAt (i : Instr) (s : State) (k : FaultKind) (info : Nat) : Prop :=
  ∃ t, exec i s = .next t ∧
    FaultedFrom s t k i.mnemonic.opcode info (s.pc + BitVec.ofNat 8 i.length)

/-- What an instruction that writes only the registers `ks` (and `pc`) leaves: every other register, `FL`, every byte
of memory, the output and the status. -/
structure OnlyRegisters (ks : List (Fin 8)) (s t : State) : Prop where
  regs : regsKept ks s t
  flags : flagsKept s t
  mem : memKept [] s t
  output : outputKept s t
  status : statusKept s t

/-- An operand byte of 8 or more raises `InvalidRegisterIndex` with that byte, on a one-register form (30_encoding.md
R64, R75). -/
def checksOperand (mk : Byte → Instr) : Prop :=
  ∀ a s, 7 < a.toNat → raisesAt (mk a) s .invalidRegisterIndex a.toNat

/-- The same on a two-register form, A checked before B. -/
def checksOperands (mk : Byte → Byte → Instr) : Prop :=
  ∀ a b s, (7 < a.toNat → raisesAt (mk a b) s .invalidRegisterIndex a.toNat) ∧
    (a.toNat ≤ 7 → 7 < b.toNat → raisesAt (mk a b) s .invalidRegisterIndex b.toNat)

/-- `w` is `u8` of the exact value `v`: "Every result wraps modulo 256" (44_alu.md R153). -/
def wrapsTo (w : Byte) (v : Int) : Prop := (w.toNat : Int) = v % 256

/-- The rule of a one-operand ALU instruction (44_alu.md R140): its bytes, its result `u8(f(x[a]))` in register A and
nowhere else, and its operand check. -/
def aluRule1 (mk : Byte → Instr) (op : Byte) (f : Nat → Int) : Prop :=
  (∀ a, encode (mk a) = [op, a]) ∧ checksOperand mk ∧
    ∀ (a : Byte) (ha : a.toNat < 8) (s : State), ∃ t, exec (mk a) s = .next t ∧
      wrapsTo (t.reg ⟨a.toNat, ha⟩) (f (s.reg ⟨a.toNat, ha⟩).toNat) ∧
      t.pc = s.pc + 2 ∧ OnlyRegisters [⟨a.toNat, ha⟩] s t

/-- The rule of a two-operand ALU instruction (44_alu.md R140), for operands on which it is `ok`: its bytes, its result
`u8(f(x[a], x[b]))`, computed from the old values, in register A and nowhere else, and its operand checks. -/
def aluRule2 (mk : Byte → Byte → Instr) (op : Byte) (ok : Nat → Nat → Prop) (f : Nat → Nat → Int) : Prop :=
  (∀ a b, encode (mk a b) = [op, a, b]) ∧ checksOperands mk ∧
    ∀ (a b : Byte) (ha : a.toNat < 8) (hb : b.toNat < 8) (s : State),
      ok (s.reg ⟨a.toNat, ha⟩).toNat (s.reg ⟨b.toNat, hb⟩).toNat → ∃ t, exec (mk a b) s = .next t ∧
        wrapsTo (t.reg ⟨a.toNat, ha⟩) (f (s.reg ⟨a.toNat, ha⟩).toNat (s.reg ⟨b.toNat, hb⟩).toNat) ∧
        t.pc = s.pc + 3 ∧ OnlyRegisters [⟨a.toNat, ha⟩] s t

/-- The rule of a conditional jump at the states in which it is `enabled` (42_compare_branch.md R122): its bytes, its
operand check, `FlagsUndefined` while `FL` has no value, and else the jump to `x[a]` exactly when `FL` meets `taken`,
changing nothing but `pc`. -/
def branchRule (mk : Byte → Instr) (op : Byte) (enabled : State → Prop) (taken : Byte → Bool) : Prop :=
  (∀ a, encode (mk a) = [op, a]) ∧
    (∀ a s, enabled s → 7 < a.toNat → raisesAt (mk a) s .invalidRegisterIndex a.toNat) ∧
    (∀ a s, enabled s → a.toNat ≤ 7 → s.fl = none → raisesAt (mk a) s .flagsUndefined 0) ∧
    ∀ (a : Byte) (ha : a.toNat < 8) (s : State) (f : Byte), enabled s → s.fl = some f →
      ∃ t, exec (mk a) s = .next t ∧
        (taken f = true → t.pc = s.reg ⟨a.toNat, ha⟩) ∧ (taken f = false → t.pc = s.pc + 2) ∧
        OnlyRegisters [] s t

/-- The register operand an instruction writes: LDI, POP and the ALU write operand A (10_state.md R21). -/
def destinationOf : Instr → Option Byte
  | .ldi a _ | .pop a => some a
  | .add a _ | .sub a _ | .mul a _ | .mod a _ | .and a _ | .or a _ | .xor a _ | .shl a _ | .shr a _ => some a
  | .inc a | .dec a | .not a => some a
  | .prn _ | .push _ | .cmp _ _ | .jmp _ | .jeq _ | .jne _ | .call _ | .ret | .hlt => none
  | .jgt _ | .jlt _ | .jle _ | .jge _ | .int _ | .iret => none

/-- The instructions that use the stack pointer without naming it (10_state.md R25). -/
def usesStack : Instr → Bool
  | .push _ | .pop _ | .call _ | .ret => true
  | .ldi _ _ | .prn _ | .cmp _ _ | .jmp _ | .jeq _ | .jne _ | .hlt => false
  | .add _ _ | .sub _ _ | .mul _ _ | .mod _ _ | .and _ _ | .or _ _ | .xor _ _ | .shl _ _ | .shr _ _ => false
  | .inc _ | .dec _ | .not _ | .jgt _ | .jlt _ | .jle _ | .jge _ | .int _ | .iret => false

/-- The instructions that can set `pc` to something other than their successor (30_encoding.md R66: JMP, the six
conditional jumps, CALL and RET; INT and IRET only fault). -/
def setsPc : Instr → Bool
  | .jmp _ | .jeq _ | .jne _ | .call _ | .ret | .jgt _ | .jlt _ | .jle _ | .jge _ => true
  | .ldi _ _ | .prn _ | .push _ | .pop _ | .cmp _ _ | .hlt | .int _ | .iret => false
  | .add _ _ | .sub _ _ | .mul _ _ | .mod _ _ | .and _ _ | .or _ _ | .xor _ _ | .shl _ _ | .shr _ _ => false
  | .inc _ | .dec _ | .not _ => false

/-- The six declared opcodes that raise `UnsupportedOperation` in a machine with these parameters (30_encoding.md
R72). -/
def disabledIn (c : Config) : Mnemonic → Bool
  | .int | .iret => true
  | .jgt | .jlt | .jle | .jge => decide (c.extBranches = .unimplemented)
  | .ldi | .prn | .push | .pop | .cmp | .jmp | .jeq | .jne | .call | .ret | .hlt => false
  | .add | .sub | .mul | .mod | .inc | .dec | .and | .or | .xor | .not | .shl | .shr => false

/-- The mnemonics of the jumps that test `FL`. -/
def testsFlags : Mnemonic → Bool
  | .jeq | .jne | .jgt | .jlt | .jle | .jge => true
  | .ldi | .prn | .push | .pop | .cmp | .jmp | .call | .ret | .hlt | .int | .iret => false
  | .add | .sub | .mul | .mod | .inc | .dec | .and | .or | .xor | .not | .shl | .shr => false

/-- An instruction of `n` operand bytes at `pc` keeps within memory, or addresses wrap (20_memory.md R46). -/
def State.fits (s : State) (n : Nat) : Prop := s.config.addrOverflow = .wrap ∨ s.pc.toNat + 1 + n ≤ 255

/-- The stack pointer after a push and a pop with nothing in between (41_stack.md R114). -/
def spAfterPushPop (sp : Byte) : Byte := if 1 ≤ sp.toNat ∧ sp.toNat ≤ 0xF4 then sp else sp - 1

/-- A run ends cleanly when the run state is `Halted`, and only then (60_exceptions.md R214). -/
def State.endedCleanly (s : State) : Prop := s.run = .halted

/-- A run ends in error when the run state is `Faulted` (60_exceptions.md R214). -/
def State.endedInError (s : State) : Prop := s.run = .faulted

/-- What a fault record holds for its kind (60_exceptions.md R200; the bound 258 where the spec says 257 is log 18). -/
def FaultRecord.infoFits (r : FaultRecord) : Prop :=
  match r.kind with
  | .unsupportedOperation => r.info = r.opcode.toNat
  | .divisionByZero => r.info = 0
  | .invalidRegisterIndex => 8 ≤ r.info ∧ r.info ≤ 255
  | .addressOutOfRange => r.info = r.p.toNat + 1 + operandCount r.opcode ∧ 256 ≤ r.info ∧ r.info ≤ 258
  | .flagsUndefined => r.info = 0

/-- The invariant of the machine: the memory is canonical; `FL` holds at most one of E, G and L and zero in bits 7:3
(10_state.md R29); it is never 0 when it starts with no value, and always has a value when it starts at 0 (R31);
there is a fault record exactly in `Faulted` (R34, 60_exceptions.md R201), and it holds what R200 says; and while
nothing is loaded the state is the one reset leaves (70_reset_and_hazards.md R232). -/
structure State.Inv (s : State) : Prop where
  mem : s.mem.wf = true
  flags : ∀ f, s.fl = some f → f = 0 ∨ f = 1 ∨ f = 2 ∨ f = 4
  flagsUndefined : s.config.flReset = .undefined → s.fl ≠ some 0
  flagsZero : s.config.flReset = .zero → s.fl ≠ none
  record : s.faultRecord.isSome = true ↔ s.run = .faulted
  recordInfo : ∀ r, s.faultRecord = some r → r.infoFits
  notLoaded : s.loaded = false → s = State.resetWith s.config

end Sys2Proof.Machine
end

