-- ==== Sys2Proof/Certificates/Slice0/Obligations.lean ====
section
/-! DEFINITION. The statements about this model, one definition each. A statement that quantifies over states quantifies
over the three parameters of 00_scope.md R6 as well, since State holds them (log 1). An opcode byte in a statement is the
one the spec's R67 gives by its decision D1 (log 5). -/

open Sys2Proof Sys2Proof.Machine

/-! ### Encoding -/

/-- Decoding an encoded instruction gives it back, with every operand at every byte, whatever follows it. -/
def Obligations.DecodeInvertsEncode : Prop :=
  ∀ (i : Instr) (rest : List Byte), decode (encode i ++ rest) = .ok (i, rest)

/-- Whatever bytes decode are the encoding of what they decode to: every word has one meaning (30_encoding.md R68). -/
def Obligations.EncodeInvertsDecode : Prop :=
  ∀ (bytes : List Byte) (i : Instr) (rest : List Byte), decode bytes = .ok (i, rest) → bytes = encode i ++ rest

/-- Bits 7:6 of the opcode byte are its value divided by 64, they are never 3 on an instruction, and the length of every
instruction is one more than them (30_encoding.md R61). -/
def Obligations.OperandCountGivesLength : Prop :=
  (∀ op : Byte, operandCount op = op.toNat / 64) ∧
    ∀ i : Instr, ∃ op ops, encode i = op :: ops ∧ operandCount op < 3 ∧ (encode i).length = 1 + operandCount op ∧
      i.length = (encode i).length

/-- A few words written out from the spec's encodings decode to what they stand for: one of each format and family
(30_encoding.md R62, R67). -/
def Obligations.WrittenOutWordsDecode : Prop :=
  decode [0b10000010, 0b00000011, 0b11001000] = .ok (.ldi 3 200, []) ∧
  decode [0b01000101, 0b00000111] = .ok (.push 7, []) ∧
  decode [0b10100111, 0b00000001, 0b00000010] = .ok (.cmp 1 2, []) ∧
  decode [0b01010110, 0b00000010] = .ok (.jne 2, []) ∧
  decode [0b00010001] = .ok (.ret, []) ∧
  decode [0b10100100, 0b00000000, 0b00000010] = .ok (.mod 0 2, []) ∧
  decode [0b01101001, 0b00000101] = .ok (.not 5, []) ∧
  decode [0b01011010, 0b00000010] = .ok (.jge 2, []) ∧
  decode [0b00010011] = .ok (.iret, [])

/-- The assembler reads back the line of every instruction it can express (30_encoding.md R76; the blanks and the
decimal immediate are the model's, log 15). -/
def Obligations.AssemblerReadsBackItsLines : Prop :=
  ∀ i : Instr, i.wellFormed = true → assembleLine (lineOf i) = some i

/-! ### Reset, load, run -/

/-- Reset leaves R0 to R6 at 0 and R7 at `0xF4` (10_state.md R24), for every setting of the parameters. -/
def Obligations.ResetRegisters : Prop :=
  (∀ (c : Config) (i : Fin 8), (State.resetWith c).reg i = if i = 7 then 0xF4 else 0) ∧
  ∀ i : Fin 8, State.reset.reg i = if i = 7 then 0xF4 else 0

/-- Reset leaves every other piece of state at the value of 70_reset_and_hazards.md R230, for every setting of the
parameters; State.reset has the settings the spec adopts by its decisions D2, D3 and D4 (log 1, log 2). -/
def Obligations.ResetLeavesTheSpecsValues : Prop :=
  (∀ c : Config, let s := State.resetWith c
    s.pc = 0 ∧ (c.flReset = .undefined → s.fl = none) ∧ (c.flReset = .zero → s.fl = some 0) ∧
    (∀ a, s.readMem a = 0) ∧ s.run = .running ∧ s.faultRecord = none ∧ s.output = [] ∧ s.loaded = false ∧
    s.config = c) ∧
  State.reset = State.resetWith ⟨.fault, .undefined, .unimplemented⟩

/-- While `Loaded = 0` no step is enabled, so the core executes nothing, by `step()` or by `run()`, and the host reads
`Loaded` (70_reset_and_hazards.md R232, R234). That a step then answers next of the same state is log 4; that `run()`
returns the state at once, for every bound, is the model's choice (log 17: R235 allows `run()` only when `Loaded = 1`). -/
def Obligations.NothingRunsBeforeALoad : Prop :=
  ∀ s : State, s.inspect.loaded = s.loaded ∧
    (s.loaded = false → step s = .next s ∧ ∀ fuel, s.runFor fuel = some s)

/-- `load` copies 1 to 256 bytes to the addresses from 0 up, sets `Loaded`, leaves every other cell and every other
piece of state; an empty or too long program is `LoadFailure`, and a second load is refused (70_reset_and_hazards.md R231;
the refusals are the spec's decision D20; the reading of "just out of reset" and the reply to a second load are log 8). -/
def Obligations.LoadCopiesTheProgram : Prop :=
  ∀ (s : State) (bytes : List Byte), s.mem.wf = true →
    (s.loaded = false → 1 ≤ bytes.length → bytes.length ≤ 256 →
      ∃ t, s.load bytes = .ok t ∧ t.loaded = true ∧
        (∀ (k : Nat) (h : k < bytes.length), t.readMem (BitVec.ofNat 8 k) = bytes[k]) ∧
        (∀ a : Byte, bytes.length ≤ a.toNat → t.readMem a = s.readMem a) ∧
        t.mem.wf = true ∧ regsKept [] s t ∧ t.pc = s.pc ∧ flagsKept s t ∧ outputKept s t ∧
        t.run = s.run ∧ t.faultRecord = s.faultRecord ∧ t.config = s.config) ∧
    (s.loaded = false → bytes.length = 0 ∨ 256 < bytes.length → s.load bytes = .error .loadFailure) ∧
    (s.loaded = true → s.load bytes = .error .notJustReset)

/-- A program text of one line of 8 binary digits a byte, bit 7 first, gives those bytes; and a text with a line that is
neither blank nor exactly 8 binary digits, once its comment and outer blanks are gone, is `MalformedProgramLine`
(70_reset_and_hazards.md R233, the spec's decision D19; what counts as white space is log 14). -/
def Obligations.ProgramTextGivesItsBytes : Prop :=
  (∀ bytes : List Byte, bytes ≠ [] → programBytes (programText bytes) = .ok bytes) ∧
  ∀ ls : List (List Char),
    (∃ l ∈ ls, stripLine l ≠ [] ∧ ((stripLine l).length ≠ 8 ∨ ∃ c ∈ stripLine l, c ≠ '0' ∧ c ≠ '1')) →
    linesBytes ls = .error .malformedProgramLine

/-- `run()` gives exactly the state that repeated `step()` gives at the first point where no step is enabled
(70_reset_and_hazards.md R234; the bound on the number of steps is the model's, log 17). -/
def Obligations.RunIsRepeatedSteps : Prop :=
  (∀ (fuel : Nat) (s t : State), s.runFor fuel = some t →
    t.stepEnabled = false ∧ ∃ k ≤ fuel, s.stepTimes k = some t) ∧
  ∀ (k : Nat) (s t : State), s.stepTimes k = some t → t.stepEnabled = false → s.runFor k = some t

/-- `inspect()`, `output()` and the parameters show the whole of a state whose memory is canonical: there is no hidden
state (10_state.md R38, 60_exceptions.md R212). -/
def Obligations.InspectionShowsAllState : Prop :=
  ∀ s t : State, s.mem.wf = true → t.mem.wf = true → s.inspect = t.inspect → s.output = t.output →
    s.config = t.config → s = t

/-! ### The step -/

/-- A step runs the decoded instruction: when the bytes at `pc` (their addresses modulo 256) decode to `i`, and `i` fits
below address 256 or addresses wrap, an enabled step is `exec i` of the same state, `pc` still at the instruction
(30_encoding.md R69; log 6). -/
def Obligations.StepRunsTheDecodedInstruction : Prop :=
  ∀ (s : State) (i : Instr) (rest : List Byte), s.run = .running → s.loaded = true →
    decode [s.readMem s.pc, s.readMem (s.pc + 1), s.readMem (s.pc + 2)] = .ok (i, rest) →
    s.fits i.mnemonic.operandCount → step s = exec i s

/-- Placing a word that the decoder reads makes the next step run it, from any state with canonical memory in which it
fits (log 7). -/
def Obligations.PlacedWordRunsNext : Prop :=
  ∀ (s : State) (nbits w : Nat) (i : Instr), s.mem.wf = true → decodeTableWord nbits w = some i →
    s.fits i.mnemonic.operandCount → step (s.withFetchWord nbits w) = exec i (s.withFetchWord nbits w)

/-- Every step answers a next state, and so does every instruction on every operand: nothing is refused, and a fault is
a state (60_exceptions.md R201; log 3). -/
def Obligations.EveryStepAnswersANextState : Prop :=
  (∀ s : State, ∃ t, step s = .next t) ∧ ∀ (i : Instr) (s : State), ∃ t, exec i s = .next t

/-- No step is enabled in `Halted` or `Faulted`, `step()` then does nothing, and a running core halts only by executing
the halt opcode (10_state.md R32, 70_reset_and_hazards.md R234). -/
def Obligations.HaltedAndFaultedAbsorb : Prop :=
  (∀ s : State, s.run ≠ .running → step s = .next s) ∧
  ∀ s t : State, s.run = .running → step s = .next t → t.run = .halted →
    s.readMem s.pc = 0x01 ∧ exec .hlt s = .next t

/-- An opcode byte from `0xC0` up faults at decode, whatever follows it, and `pc` does not move (30_encoding.md R70, the
spec's decision D6). -/
def Obligations.OperandCountThreeFaultsAtDecode : Prop :=
  (∀ op : Byte, operandCount op = 3 ↔ 0xC0 ≤ op.toNat) ∧
  ∀ s : State, s.run = .running → s.loaded = true → 0xC0 ≤ (s.readMem s.pc).toNat →
    ∃ t, step s = .next t ∧
      FaultedFrom s t .unsupportedOperation (s.readMem s.pc) (s.readMem s.pc).toNat s.pc

/-- Every other byte that is no row's opcode faults after its operand bytes are passed; there are 163 of them, among them
`0x00` and the LS-8 opcodes this core lacks (30_encoding.md R71). -/
def Obligations.UnlistedOpcodesFaultAtDispatch : Prop :=
  (∀ s : State, s.run = .running → s.loaded = true → (∀ m : Mnemonic, m.opcode ≠ s.readMem s.pc) →
    operandCount (s.readMem s.pc) ≠ 3 → s.fits (operandCount (s.readMem s.pc)) →
    ∃ t, step s = .next t ∧
      FaultedFrom s t .unsupportedOperation (s.readMem s.pc) (s.readMem s.pc).toNat
        (s.pc + 1 + BitVec.ofNat 8 (operandCount (s.readMem s.pc)))) ∧
  ((List.range 256).filter fun k =>
    operandCount (BitVec.ofNat 8 k) ≠ 3 && (lookupOpcode (BitVec.ofNat 8 k)).isNone).length = 163 ∧
  ∀ op ∈ [(0x00 : Byte), 0xA3, 0x83, 0x84, 0x48], ∀ m : Mnemonic, m.opcode ≠ op

/-- Addresses past 255. Under `ADDR_OVERFLOW = Fault` an instruction whose successor `p + 1 + n` is past 255 raises
`AddressOutOfRange` with that number and changes nothing; under `Wrap` an instruction that runs over the end is read from
address 0 on, and the address after it is taken modulo 256 (20_memory.md R46, 10_state.md R28; the default is the spec's
decision D2). -/
def Obligations.InstructionPastTheEndFollowsTheParameter : Prop :=
  (∀ s : State, s.run = .running → s.loaded = true → s.config.addrOverflow = .fault →
    operandCount (s.readMem s.pc) ≠ 3 → 255 < s.pc.toNat + 1 + operandCount (s.readMem s.pc) →
    ∃ t, step s = .next t ∧
      FaultedFrom s t .addressOutOfRange (s.readMem s.pc) (s.pc.toNat + 1 + operandCount (s.readMem s.pc)) s.pc) ∧
  ∀ (s : State) (i : Instr) (rest : List Byte), s.run = .running → s.loaded = true → s.config.addrOverflow = .wrap →
    decode ((List.range 3).map fun k => s.readMem (BitVec.ofNat 8 ((s.pc.toNat + k) % 256))) = .ok (i, rest) →
    ∃ t, step s = .next t ∧ exec i s = .next t ∧
      (setsPc i = false → t.pc.toNat = (s.pc.toNat + i.length) % 256)

/-- Every instruction that does not set `pc` leaves it at its successor, modulo 256, whether it runs or faults
(10_state.md R27, 30_encoding.md R69). -/
def Obligations.PcAdvancesPastTheInstruction : Prop :=
  ∀ (i : Instr) (s t : State), setsPc i = false → exec i s = .next t → t.pc = s.pc + BitVec.ofNat 8 i.length

/-! ### The invariant -/

/-- Every step keeps the invariant of the machine. -/
def Obligations.StepKeepsInvariant : Prop :=
  ∀ s t : State, s.Inv → step s = .next t → t.Inv

/-- Reset meets the invariant, for every setting of the parameters. -/
def Obligations.ResetMeetsInvariant : Prop := ∀ c : Config, (State.resetWith c).Inv

/-- No step writes `Loaded` or the parameters: the host writes them, by `load` and by building the machine
(70_reset_and_hazards.md R235; log 1). -/
def Obligations.StepsKeepLoadedAndParameters : Prop :=
  ∀ s t : State, step s = .next t → t.loaded = s.loaded ∧ t.config = s.config

/-- One run records at most one fault: once there is a record, no number of steps changes it or anything else
(60_exceptions.md R201). -/
def Obligations.OneFaultAtMost : Prop :=
  ∀ (s : State) (r : FaultRecord), s.Inv → s.faultRecord = some r → ∀ k, s.stepTimes k = some s

/-! ### Whole-machine rules over all instructions -/

/-- `FL` is written only by compare, which writes all of it each time, and read only by JEQ, JNE and, where they are
enabled, the four extended jumps: any other instruction does the same whatever `FL` holds, and each of these, with a
register that exists, does not (10_state.md R30). -/
def Obligations.FlagsWrittenByCompareReadByJumps : Prop :=
  (∀ (i : Instr) (s t : State), exec i s = .next t → t.fl ≠ s.fl → ∃ a b, i = .cmp a b) ∧
  (∀ (a b : Byte) (s t u : State) (f : Option Byte), a.toNat < 8 → b.toNat < 8 →
    exec (.cmp a b) s = .next t → exec (.cmp a b) { s with fl := f } = .next u → t = u ∧ t.fl ≠ none) ∧
  (∀ (i : Instr) (s t : State) (f : Option Byte),
    (testsFlags i.mnemonic = true → disabledIn s.config i.mnemonic = true) → exec i s = .next t →
    ∃ u, exec i { s with fl := f } = .next u ∧ { u with fl := t.fl } = t) ∧
  ∀ (i : Instr) (s : State), testsFlags i.mnemonic = true → disabledIn s.config i.mnemonic = false →
    i.wellFormed = true → s.run = .running →
    ∃ t u, exec i { s with fl := none } = .next t ∧ exec i { s with fl := some 0 } = .next u ∧
      { u with fl := t.fl } ≠ t

/-- Only PRN writes the output trace, and it appends one byte, the register it names (10_state.md R33, 60_exceptions.md
R215). -/
def Obligations.OutputWrittenOnlyByPrint : Prop :=
  (∀ (i : Instr) (s t : State), exec i s = .next t → t.output ≠ s.output →
    ∃ (a : Byte) (ha : a.toNat < 8), i = .prn a ∧ t.output = s.output ++ [s.reg ⟨a.toNat, ha⟩]) ∧
  ∀ s t : State, step s = .next t → s.output <+: t.output ∧ t.output.length ≤ s.output.length + 1

/-- Only PUSH and CALL write memory, and only the one byte below the stack pointer (20_memory.md R41, R44). -/
def Obligations.MemoryWrittenOnlyByPushAndCall : Prop :=
  ∀ (i : Instr) (s t : State) (x : Byte), exec i s = .next t → t.readMem x ≠ s.readMem x →
    (∃ a, i = .push a ∨ i = .call a) ∧ x = s.reg 7 - 1

/-- A register changes only as operand A of LDI, POP or an ALU instruction, or as the stack pointer of PUSH, POP, CALL or
RET (10_state.md R21, R25). -/
def Obligations.RegistersWrittenOnlyByTheirInstructions : Prop :=
  ∀ (i : Instr) (s t : State) (k : Fin 8), exec i s = .next t → t.reg k ≠ s.reg k →
    (∃ a, destinationOf i = some a ∧ a.toNat = k.val) ∨ (k = 7 ∧ usesStack i = true)

/-! ### Faults -/

/-- A step that faults changes no register, `FL`, memory byte, output, `Loaded` or parameter; it records `p` and the
opcode byte; a decode fault leaves `pc`, a dispatch fault leaves it past the instruction (60_exceptions.md R201, R202; the
value of `pc` is the spec's decision D10, log 13). -/
def Obligations.FaultChangesOnlyRecordAndPc : Prop :=
  ∀ s t : State, s.run = .running → step s = .next t → t.run = .faulted →
    ∃ k info, FaultedFrom s t k (s.readMem s.pc) info t.pc ∧
      (operandCount (s.readMem s.pc) = 3 ∨ k = .addressOutOfRange → t.pc = s.pc) ∧
      (operandCount (s.readMem s.pc) ≠ 3 → k ≠ .addressOutOfRange →
        t.pc = s.pc + 1 + BitVec.ofNat 8 (operandCount (s.readMem s.pc)))

/-- Which fault is raised when several apply: bits 7:6 = 11, then the address, then the table and the disabled opcodes,
then operand A, then operand B, then the flags, then the divisor (60_exceptions.md R203, the spec's decision D12). -/
def Obligations.FaultPriorityOrder : Prop :=
  ∀ s : State, s.run = .running → s.loaded = true →
    let op := s.readMem s.pc
    let n := operandCount op
    let a := s.readMem (s.pc + 1)
    let b := s.readMem (s.pc + 2)
    let raises := fun k info => ∃ t, step s = .next t ∧ t.run = .faulted ∧ t.faultRecord = some ⟨k, s.pc, op, info⟩
    (n = 3 → raises .unsupportedOperation op.toNat) ∧
    (n ≠ 3 → s.config.addrOverflow = .fault → 255 < s.pc.toNat + 1 + n →
      raises .addressOutOfRange (s.pc.toNat + 1 + n)) ∧
    (n ≠ 3 → s.fits n → (∀ m : Mnemonic, m.opcode ≠ op) → raises .unsupportedOperation op.toNat) ∧
    ∀ m : Mnemonic, m.opcode = op → s.fits n →
      (disabledIn s.config m = true → raises .unsupportedOperation op.toNat) ∧
      (disabledIn s.config m = false →
        (1 ≤ n → 7 < a.toNat → raises .invalidRegisterIndex a.toNat) ∧
        (m.format = .f2rr → a.toNat ≤ 7 → 7 < b.toNat → raises .invalidRegisterIndex b.toNat) ∧
        (testsFlags m = true → a.toNat ≤ 7 → s.fl = none → raises .flagsUndefined 0) ∧
        (m = .mod → a.toNat ≤ 7 → ∀ hb : b.toNat < 8, s.reg ⟨b.toNat, hb⟩ = 0 → raises .divisionByZero 0))

/-- An instruction with a register operand outside 0 to 7 raises `InvalidRegisterIndex` for the first such operand, A
before B, whether or not its behaviour would use it, unless its opcode is disabled (30_encoding.md R64, R75, the spec's
decision D9; log 12). -/
def Obligations.IllFormedInstructionsFault : Prop :=
  ∀ (i : Instr) (s : State) (r : Byte), disabledIn s.config i.mnemonic = false →
    i.registerOperands.find? (fun x => !registerByteOk x) = some r →
    raisesAt i s .invalidRegisterIndex r.toNat

/-! ### Load immediate and print numeric -/

/-- LDI (40_load_print.md R100). -/
def Obligations.LoadImmediateRule : Prop :=
  (∀ a imm, encode (.ldi a imm) = [0x82, a, imm]) ∧ (∀ imm, checksOperand fun a => .ldi a imm) ∧
  ∀ (a imm : Byte) (ha : a.toNat < 8) (s : State), ∃ t, exec (.ldi a imm) s = .next t ∧
    t.reg ⟨a.toNat, ha⟩ = imm ∧ t.pc = s.pc + 3 ∧ OnlyRegisters [⟨a.toNat, ha⟩] s t

/-- PRN (40_load_print.md R101): one byte is appended, which the host prints as its unsigned decimal value. -/
def Obligations.PrintNumericRule : Prop :=
  (∀ a, encode (.prn a) = [0x47, a]) ∧ checksOperand .prn ∧
  ∀ (a : Byte) (ha : a.toNat < 8) (s : State), ∃ t, exec (.prn a) s = .next t ∧
    t.output = s.output ++ [s.reg ⟨a.toNat, ha⟩] ∧
    t.outputLines = s.outputLines ++ [toString (s.reg ⟨a.toNat, ha⟩).toNat] ∧
    t.pc = s.pc + 2 ∧ regsKept [] s t ∧ flagsKept s t ∧ memKept [] s t ∧ statusKept s t

/-! ### Stack -/

/-- PUSH and the primitive it uses (41_stack.md R110, R112): the register's old value is stored at the decremented stack
pointer, which wraps; PUSH R7 stores the old `x[7]` (the spec's decision D7, log 11). The byte is read back where the
memory is canonical. -/
def Obligations.PushRule : Prop :=
  (∀ a, encode (.push a) = [0x45, a]) ∧ checksOperand .push ∧
  ∀ (a : Byte) (ha : a.toNat < 8) (s : State), ∃ t, exec (.push a) s = .next t ∧
    t.reg 7 = s.reg 7 - 1 ∧ (s.mem.wf = true → t.readMem (s.reg 7 - 1) = s.reg ⟨a.toNat, ha⟩) ∧
    t.pc = s.pc + 2 ∧ regsKept [7] s t ∧ flagsKept s t ∧ memKept [s.reg 7 - 1] s t ∧ outputKept s t ∧ statusKept s t

/-- POP and the primitive it uses (41_stack.md R111, R113): the byte at the stack pointer goes to register A, and the
stack pointer goes up by one only below `0xF4`; POP R7 leaves the popped byte (the spec's decision D8, log 11). -/
def Obligations.PopRule : Prop :=
  (∀ a, encode (.pop a) = [0x46, a]) ∧ checksOperand .pop ∧
  ∀ (a : Byte) (ha : a.toNat < 8) (s : State), ∃ t, exec (.pop a) s = .next t ∧
    t.reg ⟨a.toNat, ha⟩ = s.readMem (s.reg 7) ∧
    (a ≠ 7 → t.reg 7 = if (s.reg 7).toNat < 0xF4 then s.reg 7 + 1 else s.reg 7) ∧
    t.pc = s.pc + 2 ∧ OnlyRegisters [⟨a.toNat, ha⟩, 7] s t

/-- PUSH Ra and then POP Ra, for a register other than R7: the register keeps its value, the pushed byte stays in memory,
and the stack pointer comes back when it was 1 to `0xF4` and is one lower otherwise, modulo 256 (41_stack.md R114, which
the spec derives). -/
def Obligations.PushThenPopRoundTrip : Prop :=
  ∀ (a : Byte) (ha : a.toNat < 8) (s : State), a ≠ 7 → s.mem.wf = true →
    ∃ t u, exec (.push a) s = .next t ∧ exec (.pop a) t = .next u ∧
      u.reg ⟨a.toNat, ha⟩ = s.reg ⟨a.toNat, ha⟩ ∧ u.reg 7 = spAfterPushPop (s.reg 7) ∧
      u.readMem (s.reg 7 - 1) = s.reg ⟨a.toNat, ha⟩ ∧ regsKept [7] s u ∧ memKept [s.reg 7 - 1] s u

/-- Self-modifying code: a byte that PUSH stores at the address of the next instruction is what the very next fetch reads;
pushed as the halt opcode, it halts the core (20_memory.md R53). -/
def Obligations.PushedByteIsFetchedNext : Prop :=
  ∀ (a : Byte) (ha : a.toNat < 8) (s : State), s.mem.wf = true → s.run = .running → s.loaded = true →
    s.reg 7 - 1 = s.pc + 2 →
    ∃ t, exec (.push a) s = .next t ∧ t.readMem t.pc = s.reg ⟨a.toNat, ha⟩ ∧
      (s.reg ⟨a.toNat, ha⟩ = 0x01 → t.fits 0 → ∃ u, step t = .next u ∧ u.endedCleanly)

/-! ### Compare and jumps -/

/-- CMP (42_compare_branch.md R120): unsigned; all three bits are set or cleared, bits 7:3 are 0. -/
def Obligations.CompareRule : Prop :=
  (∀ a b, encode (.cmp a b) = [0xA7, a, b]) ∧ checksOperands .cmp ∧
  ∀ (a b : Byte) (ha : a.toNat < 8) (hb : b.toNat < 8) (s : State), ∃ t f, exec (.cmp a b) s = .next t ∧
    t.fl = some f ∧
    (f.getLsbD 0 = true ↔ (s.reg ⟨a.toNat, ha⟩).toNat = (s.reg ⟨b.toNat, hb⟩).toNat) ∧
    (f.getLsbD 1 = true ↔ (s.reg ⟨a.toNat, ha⟩).toNat > (s.reg ⟨b.toNat, hb⟩).toNat) ∧
    (f.getLsbD 2 = true ↔ (s.reg ⟨a.toNat, ha⟩).toNat < (s.reg ⟨b.toNat, hb⟩).toNat) ∧
    (∀ k, 3 ≤ k → f.getLsbD k = false) ∧
    t.pc = s.pc + 3 ∧ regsKept [] s t ∧ memKept [] s t ∧ outputKept s t ∧ statusKept s t

/-- After any CMP that runs, exactly one of E, G and L is 1, so `FL` is 1, 2 or 4; comparing a register with itself
gives 1 (10_state.md R29 and 42_compare_branch.md R120, which the spec derives). -/
def Obligations.CompareLeavesOneFlag : Prop :=
  ∀ (a b : Byte) (s t : State), a.toNat < 8 → b.toNat < 8 → exec (.cmp a b) s = .next t →
    (t.fl = some 0x01 ∨ t.fl = some 0x02 ∨ t.fl = some 0x04) ∧ (a = b → t.fl = some 0x01)

/-- JMP (42_compare_branch.md R121). -/
def Obligations.JumpRule : Prop :=
  (∀ a, encode (.jmp a) = [0x54, a]) ∧ checksOperand .jmp ∧
  ∀ (a : Byte) (ha : a.toNat < 8) (s : State), ∃ t, exec (.jmp a) s = .next t ∧
    t.pc = s.reg ⟨a.toNat, ha⟩ ∧ OnlyRegisters [] s t

/-- JEQ and JNE (42_compare_branch.md R122, R123): only bit 0 of `FL` is tested. -/
def Obligations.EqualityJumpRules : Prop :=
  branchRule .jeq 0x55 (fun _ => True) (fun f => f.getLsbD 0) ∧
  branchRule .jne 0x56 (fun _ => True) (fun f => !f.getLsbD 0)

/-! ### Call, return, halt -/

/-- CALL (43_call_return_halt.md R130): the address after the call is stored at the decremented stack pointer, and `pc` is
the register's old value; CALL R7 goes to the old `x[7]` (the spec's decision D7, log 11). -/
def Obligations.CallRule : Prop :=
  (∀ a, encode (.call a) = [0x50, a]) ∧ checksOperand .call ∧
  ∀ (a : Byte) (ha : a.toNat < 8) (s : State), ∃ t, exec (.call a) s = .next t ∧
    t.pc = s.reg ⟨a.toNat, ha⟩ ∧ t.reg 7 = s.reg 7 - 1 ∧ (s.mem.wf = true → t.readMem (s.reg 7 - 1) = s.pc + 2) ∧
    regsKept [7] s t ∧ flagsKept s t ∧ memKept [s.reg 7 - 1] s t ∧ outputKept s t ∧ statusKept s t

/-- RET (43_call_return_halt.md R131): the guarded pop into `pc`. -/
def Obligations.ReturnRule : Prop :=
  encode .ret = [0x11] ∧
  ∀ s : State, ∃ t, exec .ret s = .next t ∧ t.pc = s.readMem (s.reg 7) ∧
    (t.reg 7 = if (s.reg 7).toNat < 0xF4 then s.reg 7 + 1 else s.reg 7) ∧ OnlyRegisters [7] s t

/-- CALL and then RET comes back to the instruction after the call, with the stack pointer where PUSH and POP leave it
(43_call_return_halt.md R130, R131). -/
def Obligations.CallThenReturnComesBack : Prop :=
  ∀ (a : Byte) (ha : a.toNat < 8) (s : State), s.mem.wf = true →
    ∃ t u, exec (.call a) s = .next t ∧ exec .ret t = .next u ∧
      t.pc = s.reg ⟨a.toNat, ha⟩ ∧ u.pc = s.pc + 2 ∧ u.reg 7 = spAfterPushPop (s.reg 7) ∧
      regsKept [7] s u ∧ memKept [s.reg 7 - 1] s u

/-- HLT (43_call_return_halt.md R132): the core is `Halted`, `pc` is past the HLT, after it nothing executes, and no other
instruction ends a run cleanly. -/
def Obligations.HaltRule : Prop :=
  encode .hlt = [0x01] ∧
  (∀ s : State, ∃ t, exec .hlt s = .next t ∧ t.run = .halted ∧ t.pc = s.pc + 1 ∧ step t = .next t ∧
    regsKept [] s t ∧ flagsKept s t ∧ memKept [] s t ∧ outputKept s t ∧
    t.faultRecord = s.faultRecord ∧ t.loaded = s.loaded ∧ t.config = s.config) ∧
  ∀ (i : Instr) (s t : State), s.run = .running → exec i s = .next t → t.endedCleanly → i = .hlt

/-! ### ALU -/

/-- ADD, SUB and MUL are modular (44_alu.md R141, R142, R143). -/
def Obligations.ModularArithmeticRules : Prop :=
  aluRule2 .add 0xA0 (fun _ _ => True) (fun u w => u + w) ∧
  aluRule2 .sub 0xA1 (fun _ _ => True) (fun u w => u - w) ∧
  aluRule2 .mul 0xA2 (fun _ _ => True) (fun u w => u * w)

/-- MOD (44_alu.md R144): the remainder, below the divisor; a zero divisor raises `DivisionByZero`. -/
def Obligations.RemainderRule : Prop :=
  aluRule2 .mod 0xA4 (fun _ w => w ≠ 0) (fun u w => ((u % w : Nat) : Int)) ∧
  ∀ (a b : Byte) (hb : b.toNat < 8) (s : State), a.toNat < 8 → s.reg ⟨b.toNat, hb⟩ = 0 →
    raisesAt (.mod a b) s .divisionByZero 0

/-- INC, DEC and NOT (44_alu.md R145, R146, R150). -/
def Obligations.OneOperandAluRules : Prop :=
  aluRule1 .inc 0x65 (fun u => u + 1) ∧ aluRule1 .dec 0x66 (fun u => u - 1) ∧
  aluRule1 .not 0x69 (fun u => 255 - u)

/-- AND, OR and XOR (44_alu.md R147, R148, R149). -/
def Obligations.BitwiseRules : Prop :=
  aluRule2 .and 0xA8 (fun _ _ => True) (fun u w => ((u &&& w : Nat) : Int)) ∧
  aluRule2 .or 0xAA (fun _ _ => True) (fun u w => ((u ||| w : Nat) : Int)) ∧
  aluRule2 .xor 0xAB (fun _ _ => True) (fun u w => ((u ^^^ w : Nat) : Int))

/-- SHL and SHR (44_alu.md R151, R152): zeros shifted in, and the count is the whole byte, 0 to 255. -/
def Obligations.ShiftRules : Prop :=
  aluRule2 .shl 0xAC (fun _ _ => True) (fun u w => ((u * 2 ^ w : Nat) : Int)) ∧
  aluRule2 .shr 0xAD (fun _ _ => True) (fun u w => ((u / 2 ^ w : Nat) : Int))

/-- A shift count of 8 or more gives 0 (44_alu.md R151, R152; for SHL the spec derives it). -/
def Obligations.ShiftByEightOrMoreGivesZero : Prop :=
  ∀ (a b : Byte) (ha : a.toNat < 8) (hb : b.toNat < 8) (s t : State), 8 ≤ (s.reg ⟨b.toNat, hb⟩).toNat →
    exec (.shl a b) s = .next t ∨ exec (.shr a b) s = .next t → t.reg ⟨a.toNat, ha⟩ = 0

/-! ### Declared but undispatched opcodes -/

/-- JGT, JLT, JLE and JGE: with `EXT_BRANCHES = Implemented` they jump on G, on L, on L or E, on G or E; with
`Unimplemented` they raise `UnsupportedOperation`, before any register check (45_unimplemented.md R170 to R173, the spec's
decision D4). -/
def Obligations.ExtendedJumpRules : Prop :=
  branchRule .jgt 0x57 (fun s => s.config.extBranches = .implemented) (fun f => f.getLsbD 1) ∧
  branchRule .jlt 0x58 (fun s => s.config.extBranches = .implemented) (fun f => f.getLsbD 2) ∧
  branchRule .jle 0x59 (fun s => s.config.extBranches = .implemented) (fun f => f.getLsbD 2 || f.getLsbD 0) ∧
  branchRule .jge 0x5A (fun s => s.config.extBranches = .implemented) (fun f => f.getLsbD 1 || f.getLsbD 0) ∧
  ∀ (a : Byte) (s : State), s.config.extBranches = .unimplemented →
    raisesAt (.jgt a) s .unsupportedOperation 0x57 ∧ raisesAt (.jlt a) s .unsupportedOperation 0x58 ∧
    raisesAt (.jle a) s .unsupportedOperation 0x59 ∧ raisesAt (.jge a) s .unsupportedOperation 0x5A

/-- INT and IRET take the fault `UnsupportedOperation` under every setting of the parameters, with any operand
(45_unimplemented.md R174, R175, the spec's decision D5): their whole effect. -/
def Obligations.InterruptOpcodesAreUnsupported : Prop :=
  (∀ a, encode (.int a) = [0x52, a]) ∧ encode .iret = [0x13] ∧
  ∀ (a : Byte) (s : State), raisesAt (.int a) s .unsupportedOperation 0x52 ∧
    raisesAt .iret s .unsupportedOperation 0x13
end

