-- ==== Sys2Proof/Laws/Arith.lean ====
section
/-! SUPPORT. The small laws of `u8` (00_scope.md R8) and of the flags byte. -/

namespace Sys2Proof.Machine

/-- `u8(v) = v mod 256`. -/
theorem u8_toNat (v : Int) : ((u8 v).toNat : Int) = v % 256 := by
  simp only [u8, BitVec.toNat_ofInt]
  omega

/-- `u8` of a natural number. -/
theorem u8_natCast (n : Nat) : u8 (n : Int) = BitVec.ofNat 8 n := by
  apply BitVec.eq_of_toNat_eq
  have h := u8_toNat n
  simp only [BitVec.toNat_ofNat]
  omega

/-- `u8` of a byte's own value. -/
@[simp] theorem u8_toNat_self (b : Byte) : u8 (b.toNat : Int) = b := by
  rw [u8_natCast]; simp

/-- `u8` of a byte plus a number is the sum modulo 256. -/
theorem u8_add_natCast (b : Byte) (n : Nat) : u8 ((b.toNat : Int) + n) = b + BitVec.ofNat 8 n := by
  apply BitVec.eq_of_toNat_eq
  have h := u8_toNat ((b.toNat : Int) + n)
  simp only [BitVec.toNat_add, BitVec.toNat_ofNat]
  omega

/-- The decrement wraps. -/
theorem u8_sub_one (b : Byte) : u8 ((b.toNat : Int) - 1) = b - 1 := by
  apply BitVec.eq_of_toNat_eq
  have h := u8_toNat ((b.toNat : Int) - 1)
  have hb := b.isLt
  have h1 : (1 : Byte).toNat = 1 := rfl
  simp only [BitVec.toNat_sub, h1]
  omega

/-- The increment. -/
theorem u8_add_one (b : Byte) : u8 ((b.toNat : Int) + 1) = b + 1 := u8_add_natCast b 1

/-- The decoder's advance as a sum modulo 256. -/
theorem u8_advance (b : Byte) (n : Nat) : u8 ((b.toNat : Int) + 1 + n) = b + BitVec.ofNat 8 (1 + n) := by
  have h := u8_add_natCast b (1 + n)
  rw [← h]
  congr 1
  push_cast
  omega

/-- Bits E, G and L of a packed flags byte are the bits packed, and bits 7:3 are 0 (10_state.md R29). -/
theorem packFlags_bits (e g l : Bool) :
    flagE (packFlags e g l) = e ∧ flagG (packFlags e g l) = g ∧ flagL (packFlags e g l) = l ∧
      packFlags e g l &&& 0xF8 = 0 := by
  cases e <;> cases g <;> cases l <;> decide

/-- The three values compare can write (42_compare_branch.md R120). -/
theorem compareFlags_cases (u w : Byte) :
    (u.toNat = w.toNat ∧ compareFlags u w = 1) ∨ (w.toNat < u.toNat ∧ compareFlags u w = 2) ∨
      (u.toNat < w.toNat ∧ compareFlags u w = 4) := by
  rcases Nat.lt_trichotomy u.toNat w.toNat with h | h | h
  · have h1 : ¬ u.toNat = w.toNat := by omega
    have h2 : ¬ w.toNat < u.toNat := by omega
    exact .inr (.inr ⟨h, by simp [compareFlags, packFlags, h, h1, h2]⟩)
  · have h1 : ¬ u.toNat < w.toNat := by omega
    have h2 : ¬ w.toNat < u.toNat := by omega
    exact .inl ⟨h, by simp [compareFlags, packFlags, h]⟩
  · have h1 : ¬ u.toNat = w.toNat := by omega
    have h2 : ¬ u.toNat < w.toNat := by omega
    exact .inr (.inl ⟨h, by simp [compareFlags, packFlags, h, h1, h2]⟩)

end Sys2Proof.Machine
end

