-- ==== Sys2Proof/Laws/Decode.lean ====
section
/-! SUPPORT. The laws of the opcode table: no two rows overlap, every row's top bits give its operand count, and what
looking a byte up answers. -/

namespace Sys2Proof

/-- Every mnemonic is a row. -/
theorem Mnemonic.mem_all (m : Mnemonic) : m ∈ Mnemonic.all := by cases m <;> decide

/-- No two rows share an opcode byte. -/
theorem opcodes_distinct : Mnemonic.all.Pairwise fun m n => m.opcode ≠ n.opcode := by decide

/-- A row's opcode byte is looked up to that row. -/
@[simp] theorem lookupOpcode_opcode (m : Mnemonic) : lookupOpcode m.opcode = some m := by cases m <;> decide

/-- A byte looked up to a row is that row's opcode byte. -/
theorem opcode_of_lookupOpcode {op : Byte} {m : Mnemonic} (h : lookupOpcode op = some m) : m.opcode = op := by
  have := List.find?_some h
  simpa using this

/-- Bits 7:6 of a row's opcode byte are its format's operand count (30_encoding.md R61, R62). -/
@[simp] theorem operandCount_opcode (m : Mnemonic) : operandCount m.opcode = m.operandCount := by
  cases m <;> decide

/-- No row has three operands. -/
theorem operandCount_opcode_lt (m : Mnemonic) : operandCount m.opcode < 3 := by cases m <;> decide

/-- An instruction has as many operand bytes as its format. -/
@[simp] theorem Instr.operands_length (i : Instr) : i.operands.length = i.mnemonic.operandCount := by
  cases i <;> rfl

/-- Decoding bytes whose first is a row's opcode byte takes that row's operands. -/
theorem decode_cons_of_lookup {op : Byte} {m : Mnemonic} (rest : List Byte) (h : lookupOpcode op = some m) :
    decode (op :: rest) = m.takeOperands rest := by
  have hop := opcode_of_lookupOpcode h
  have hn : operandCount op ≠ 3 := by
    have := operandCount_opcode_lt m
    rw [hop] at this
    omega
  simp only [decode, hn, if_false, h]

/-- An opcode byte that is not in the table is refused by name (30_encoding.md R70, R71). -/
theorem decode_cons_of_not_lookup {op : Byte} (rest : List Byte) (h : lookupOpcode op = none) :
    decode (op :: rest) =
      .error (if operandCount op = 3 then .operandCountThree op else .unknownOpcode op) := by
  simp only [decode, h]
  split <;> rfl

end Sys2Proof
end

