-- ==== Sys2Proof/Laws/Memory.lean ====
section
/-! SUPPORT. The laws of memory: read after write, and that every memory operation keeps the canonical form. -/

namespace Sys2Proof.Machine

/-- The canonical form with a higher lower bound is the canonical form with a lower one. -/
theorem Memory.wfFrom_mono {lo hi : Nat} {m : Memory} (hle : lo ≤ hi) (h : Memory.wfFrom hi m = true) :
    Memory.wfFrom lo m = true := by
  cases m with
  | nil => rfl
  | cons c m =>
    obtain ⟨k, w⟩ := c
    simp only [Memory.wfFrom, Bool.and_eq_true, decide_eq_true_eq] at h ⊢
    exact ⟨⟨⟨by omega, h.1.1.2⟩, h.1.2⟩, h.2⟩

/-- Below the first listed address a canonical memory reads as unlisted. -/
theorem Memory.readAt_below {lo a : Nat} {m : Memory} (h : Memory.wfFrom lo m = true) (ha : a < lo) :
    m.readAt a = unlistedByte := by
  induction m generalizing lo with
  | nil => rfl
  | cons c m ih =>
    obtain ⟨k, w⟩ := c
    simp only [Memory.wfFrom, Bool.and_eq_true, decide_eq_true_eq] at h
    have hk : k ≠ a := by omega
    simp only [Memory.readAt, hk, if_false]
    exact ih h.2 (by omega)

/-- Past the last cell a canonical memory lists nothing. -/
theorem Memory.readAt_above {lo a : Nat} {m : Memory} (h : Memory.wfFrom lo m = true) (ha : memSize ≤ a) :
    m.readAt a = unlistedByte := by
  induction m generalizing lo with
  | nil => rfl
  | cons c m ih =>
    obtain ⟨k, w⟩ := c
    simp only [Memory.wfFrom, Bool.and_eq_true, decide_eq_true_eq] at h
    have hk : k ≠ a := by omega
    simp only [Memory.readAt, hk, if_false]
    exact ih h.2

/-- A write leaves every other address, whatever the list. -/
theorem Memory.readAt_writeAt_ne {a b : Nat} (m : Memory) (v : Byte) (h : b ≠ a) :
    (m.writeAt a v).readAt b = m.readAt b := by
  have hab : a ≠ b := fun e => h e.symm
  induction m with
  | nil =>
    simp only [Memory.writeAt]
    split <;> simp [Memory.readAt, hab]
  | cons c m ih =>
    obtain ⟨k, w⟩ := c
    simp only [Memory.writeAt]
    split
    · split <;> simp [Memory.readAt, hab]
    · split
      · next hk =>
        have hkb : k ≠ b := by omega
        split <;> simp [Memory.readAt, hab, hkb]
      · simp only [Memory.readAt, ih]

/-- An address reads the byte written to it. -/
theorem Memory.readAt_writeAt_same {lo a : Nat} {m : Memory} (v : Byte) (h : Memory.wfFrom lo m = true) :
    (m.writeAt a v).readAt a = v := by
  induction m generalizing lo with
  | nil =>
    simp only [Memory.writeAt]
    split
    · next hv => simp [Memory.readAt, hv]
    · simp [Memory.readAt]
  | cons c m ih =>
    obtain ⟨k, w⟩ := c
    simp only [Memory.wfFrom, Bool.and_eq_true, decide_eq_true_eq] at h
    simp only [Memory.writeAt]
    split
    · next hak =>
      split
      · next hv =>
        have hk : k ≠ a := by omega
        simp only [Memory.readAt, hk, if_false, hv]
        exact Memory.readAt_below h.2 (by omega)
      · simp [Memory.readAt]
    · split
      · next hk =>
        split
        · next hv =>
          rw [hv]
          exact Memory.readAt_below h.2 (by omega)
        · simp [Memory.readAt]
      · next hk =>
        have hk' : k ≠ a := fun e => hk e.symm
        simp only [Memory.readAt, hk', if_false]
        exact ih h.2

/-- A write keeps the canonical form. -/
theorem Memory.writeAt_wfFrom {lo a : Nat} {m : Memory} (v : Byte) (hlo : lo ≤ a) (ha : a < memSize)
    (h : Memory.wfFrom lo m = true) : Memory.wfFrom lo (m.writeAt a v) = true := by
  induction m generalizing lo with
  | nil =>
    simp only [Memory.writeAt]
    split
    · rfl
    · next hv => simp [Memory.wfFrom, hlo, ha, hv]
  | cons c m ih =>
    obtain ⟨k, w⟩ := c
    simp only [Memory.writeAt]
    have h' := h
    simp only [Memory.wfFrom, Bool.and_eq_true, decide_eq_true_eq] at h'
    obtain ⟨⟨⟨h1, h2⟩, h3⟩, h4⟩ := h'
    split
    · next hak =>
      split
      · exact h
      · next hv =>
        simp only [Memory.wfFrom, Bool.and_eq_true, decide_eq_true_eq]
        exact ⟨⟨⟨hlo, ha⟩, hv⟩, ⟨⟨by omega, h2⟩, h3⟩, h4⟩
    · split
      · next hk =>
        split
        · exact Memory.wfFrom_mono (by omega) h4
        · next hv =>
          simp only [Memory.wfFrom, Bool.and_eq_true, decide_eq_true_eq]
          exact ⟨⟨⟨hlo, ha⟩, hv⟩, hk ▸ h4⟩
      · simp only [Memory.wfFrom, Bool.and_eq_true, decide_eq_true_eq]
        exact ⟨⟨⟨h1, h2⟩, h3⟩, ih (by omega) h4⟩

/-- Storing a byte keeps the canonical form. -/
theorem Memory.write_wf {m : Memory} (a v : Byte) (h : m.wf = true) : (m.write a v).wf = true :=
  Memory.writeAt_wfFrom v (Nat.zero_le _) a.isLt h

/-- Reading back a stored byte. -/
theorem Memory.read_write_same {m : Memory} (a v : Byte) (h : m.wf = true) : (m.write a v).read a = v :=
  Memory.readAt_writeAt_same v h

/-- Reading another address than the one stored to. -/
theorem Memory.read_write_ne (m : Memory) {a b : Byte} (v : Byte) (h : b ≠ a) : (m.write a v).read b = m.read b :=
  Memory.readAt_writeAt_ne m v fun e => h (BitVec.eq_of_toNat_eq e)

/-- Loading bytes that fit keeps the canonical form. -/
theorem Memory.writeList_wf {m : Memory} {a : Nat} (bs : List Byte) (ha : a + bs.length ≤ memSize)
    (h : m.wf = true) : (m.writeList a bs).wf = true := by
  induction bs generalizing m a with
  | nil => exact h
  | cons b bs ih =>
    simp only [List.length_cons] at ha
    exact ih (by omega) (Memory.writeAt_wfFrom b (Nat.zero_le _) (by omega) h)

/-- Reset's memory is canonical. -/
theorem State.resetWith_mem_wf (c : Config) : (State.resetWith c).mem.wf = true := rfl

/-- Two canonical memories that read alike are the same list. -/
theorem Memory.wfFrom_ext {lo : Nat} {m n : Memory} (hm : Memory.wfFrom lo m = true) (hn : Memory.wfFrom lo n = true)
    (h : ∀ a, m.readAt a = n.readAt a) : m = n := by
  induction m generalizing lo n with
  | nil =>
    cases n with
    | nil => rfl
    | cons c n =>
      obtain ⟨k, w⟩ := c
      simp only [Memory.wfFrom, Bool.and_eq_true, decide_eq_true_eq] at hn
      have := h k
      simp [Memory.readAt] at this
      exact absurd this.symm hn.1.2
  | cons c m ih =>
    obtain ⟨k, w⟩ := c
    have hm' := hm
    simp only [Memory.wfFrom, Bool.and_eq_true, decide_eq_true_eq] at hm
    cases n with
    | nil =>
      have := h k
      simp [Memory.readAt] at this
      exact absurd this hm.1.2
    | cons d n =>
      obtain ⟨l, x⟩ := d
      have hn' := hn
      simp only [Memory.wfFrom, Bool.and_eq_true, decide_eq_true_eq] at hn
      have hkl : k = l := by
        rcases Nat.lt_trichotomy k l with hlt | heq | hgt
        · have h1 := h k
          have h2 : Memory.readAt ((l, x) :: n) k = unlistedByte :=
            Memory.readAt_below (lo := l) (by simp [Memory.wfFrom, hn.1.1.2, hn.1.2, hn.2]) hlt
          rw [h2] at h1
          simp [Memory.readAt] at h1
          exact absurd h1 hm.1.2
        · exact heq
        · have h1 := h l
          have h2 : Memory.readAt ((k, w) :: m) l = unlistedByte :=
            Memory.readAt_below (lo := k) (by simp [Memory.wfFrom, hm.1.1.2, hm.1.2, hm.2]) hgt
          rw [h2] at h1
          simp [Memory.readAt] at h1
          exact absurd h1.symm hn.1.2
      subst hkl
      have hwx : w = x := by have := h k; simpa [Memory.readAt] using this
      subst hwx
      have hrest : m = n := by
        apply ih hm.2 hn.2
        intro a
        by_cases ha : k = a
        · subst ha
          rw [Memory.readAt_below hm.2 (by omega), Memory.readAt_below hn.2 (by omega)]
        · have := h a
          simpa [Memory.readAt, ha] using this
      rw [hrest]

end Sys2Proof.Machine
end

