-- ==== Sys2Proof/Laws/State.lean ====
section
/-! SUPPORT. What each update of State does to each field: one lemma a field and update, and the read and write laws of
the register file. -/

namespace Sys2Proof.Machine

section registers

variable (s : State) (i j : Fin 8) (v : Byte)

/-- A register reads the value written to it. -/
@[simp] theorem State.reg_setReg_same : (s.setReg i v).reg i = v := by
  simp [State.reg, State.setReg]

/-- A write leaves every other register. -/
theorem State.reg_setReg_ne (h : j ≠ i) : (s.setReg i v).reg j = s.reg j := by
  have hv : (i : Nat) ≠ (j : Nat) := fun e => h (Fin.ext e.symm)
  simp [State.reg, State.setReg, Vector.getElem_set_ne, hv]

/-- A register after a write, by cases. -/
theorem State.reg_setReg : (s.setReg i v).reg j = if j = i then v else s.reg j := by
  split
  · next h => subst h; exact State.reg_setReg_same s j v
  · next h => exact State.reg_setReg_ne s i j v h

/-- `reg` reads the field `regs`. -/
theorem State.reg_congr {t : State} (h : t.regs = s.regs) : t.reg j = s.reg j := by
  simp [State.reg, h]

/-- Reading a memory byte reads the field `mem`. -/
theorem State.readMem_congr {t : State} (h : t.mem = s.mem) (a : Byte) : t.readMem a = s.readMem a := by
  simp [State.readMem, h]

end registers

section fields

variable (s : State)

@[simp] theorem State.setReg_config (i : Fin 8) (v : Byte) : (s.setReg i v).config = s.config := rfl
@[simp] theorem State.setReg_regs (i : Fin 8) (v : Byte) : (s.setReg i v).regs = s.regs.set i v := rfl
@[simp] theorem State.setReg_pc (i : Fin 8) (v : Byte) : (s.setReg i v).pc = s.pc := rfl
@[simp] theorem State.setReg_fl (i : Fin 8) (v : Byte) : (s.setReg i v).fl = s.fl := rfl
@[simp] theorem State.setReg_mem (i : Fin 8) (v : Byte) : (s.setReg i v).mem = s.mem := rfl
@[simp] theorem State.setReg_run (i : Fin 8) (v : Byte) : (s.setReg i v).run = s.run := rfl
@[simp] theorem State.setReg_faultRecord (i : Fin 8) (v : Byte) : (s.setReg i v).faultRecord = s.faultRecord := rfl
@[simp] theorem State.setReg_output (i : Fin 8) (v : Byte) : (s.setReg i v).output = s.output := rfl
@[simp] theorem State.setReg_loaded (i : Fin 8) (v : Byte) : (s.setReg i v).loaded = s.loaded := rfl

@[simp] theorem State.setReg_readMem (i : Fin 8) (v : Byte) (x : Byte) : (s.setReg i v).readMem x = s.readMem x := rfl

@[simp] theorem State.setPc_config (v : Byte) : (s.setPc v).config = s.config := rfl
@[simp] theorem State.setPc_regs (v : Byte) : (s.setPc v).regs = s.regs := rfl
@[simp] theorem State.setPc_pc (v : Byte) : (s.setPc v).pc = v := rfl
@[simp] theorem State.setPc_fl (v : Byte) : (s.setPc v).fl = s.fl := rfl
@[simp] theorem State.setPc_mem (v : Byte) : (s.setPc v).mem = s.mem := rfl
@[simp] theorem State.setPc_run (v : Byte) : (s.setPc v).run = s.run := rfl
@[simp] theorem State.setPc_faultRecord (v : Byte) : (s.setPc v).faultRecord = s.faultRecord := rfl
@[simp] theorem State.setPc_output (v : Byte) : (s.setPc v).output = s.output := rfl
@[simp] theorem State.setPc_loaded (v : Byte) : (s.setPc v).loaded = s.loaded := rfl

@[simp] theorem State.setPc_reg (v : Byte) (j : Fin 8) : (s.setPc v).reg j = s.reg j := rfl
@[simp] theorem State.setPc_readMem (v : Byte) (x : Byte) : (s.setPc v).readMem x = s.readMem x := rfl

@[simp] theorem State.setFlags_config (f : Byte) : (s.setFlags f).config = s.config := rfl
@[simp] theorem State.setFlags_regs (f : Byte) : (s.setFlags f).regs = s.regs := rfl
@[simp] theorem State.setFlags_pc (f : Byte) : (s.setFlags f).pc = s.pc := rfl
@[simp] theorem State.setFlags_fl (f : Byte) : (s.setFlags f).fl = some f := rfl
@[simp] theorem State.setFlags_mem (f : Byte) : (s.setFlags f).mem = s.mem := rfl
@[simp] theorem State.setFlags_run (f : Byte) : (s.setFlags f).run = s.run := rfl
@[simp] theorem State.setFlags_faultRecord (f : Byte) : (s.setFlags f).faultRecord = s.faultRecord := rfl
@[simp] theorem State.setFlags_output (f : Byte) : (s.setFlags f).output = s.output := rfl
@[simp] theorem State.setFlags_loaded (f : Byte) : (s.setFlags f).loaded = s.loaded := rfl

@[simp] theorem State.setFlags_reg (f : Byte) (j : Fin 8) : (s.setFlags f).reg j = s.reg j := rfl
@[simp] theorem State.setFlags_readMem (f : Byte) (x : Byte) : (s.setFlags f).readMem x = s.readMem x := rfl

@[simp] theorem State.writeMem_config (a v : Byte) : (s.writeMem a v).config = s.config := rfl
@[simp] theorem State.writeMem_regs (a v : Byte) : (s.writeMem a v).regs = s.regs := rfl
@[simp] theorem State.writeMem_pc (a v : Byte) : (s.writeMem a v).pc = s.pc := rfl
@[simp] theorem State.writeMem_fl (a v : Byte) : (s.writeMem a v).fl = s.fl := rfl
@[simp] theorem State.writeMem_mem (a v : Byte) : (s.writeMem a v).mem = s.mem.write a v := rfl
@[simp] theorem State.writeMem_run (a v : Byte) : (s.writeMem a v).run = s.run := rfl
@[simp] theorem State.writeMem_faultRecord (a v : Byte) : (s.writeMem a v).faultRecord = s.faultRecord := rfl
@[simp] theorem State.writeMem_output (a v : Byte) : (s.writeMem a v).output = s.output := rfl
@[simp] theorem State.writeMem_loaded (a v : Byte) : (s.writeMem a v).loaded = s.loaded := rfl

@[simp] theorem State.writeMem_reg (a v : Byte) (j : Fin 8) : (s.writeMem a v).reg j = s.reg j := rfl

@[simp] theorem State.out_config (v : Byte) : (s.out v).config = s.config := rfl
@[simp] theorem State.out_regs (v : Byte) : (s.out v).regs = s.regs := rfl
@[simp] theorem State.out_pc (v : Byte) : (s.out v).pc = s.pc := rfl
@[simp] theorem State.out_fl (v : Byte) : (s.out v).fl = s.fl := rfl
@[simp] theorem State.out_mem (v : Byte) : (s.out v).mem = s.mem := rfl
@[simp] theorem State.out_run (v : Byte) : (s.out v).run = s.run := rfl
@[simp] theorem State.out_faultRecord (v : Byte) : (s.out v).faultRecord = s.faultRecord := rfl
@[simp] theorem State.out_output (v : Byte) : (s.out v).output = s.output ++ [v] := rfl
@[simp] theorem State.out_loaded (v : Byte) : (s.out v).loaded = s.loaded := rfl

@[simp] theorem State.out_reg (v : Byte) (j : Fin 8) : (s.out v).reg j = s.reg j := rfl
@[simp] theorem State.out_readMem (v : Byte) (x : Byte) : (s.out v).readMem x = s.readMem x := rfl

@[simp] theorem State.halt_config : (s.halt).config = s.config := rfl
@[simp] theorem State.halt_regs : (s.halt).regs = s.regs := rfl
@[simp] theorem State.halt_pc : (s.halt).pc = s.pc := rfl
@[simp] theorem State.halt_fl : (s.halt).fl = s.fl := rfl
@[simp] theorem State.halt_mem : (s.halt).mem = s.mem := rfl
@[simp] theorem State.halt_run : (s.halt).run = .halted := rfl
@[simp] theorem State.halt_faultRecord : (s.halt).faultRecord = s.faultRecord := rfl
@[simp] theorem State.halt_output : (s.halt).output = s.output := rfl
@[simp] theorem State.halt_loaded : (s.halt).loaded = s.loaded := rfl

@[simp] theorem State.halt_reg (j : Fin 8) : (s.halt).reg j = s.reg j := rfl
@[simp] theorem State.halt_readMem (x : Byte) : (s.halt).readMem x = s.readMem x := rfl

@[simp] theorem State.advance_config (n : Nat) : (s.advance n).config = s.config := rfl
@[simp] theorem State.advance_regs (n : Nat) : (s.advance n).regs = s.regs := rfl
@[simp] theorem State.advance_pc (n : Nat) : (s.advance n).pc = s.pc + BitVec.ofNat 8 (1 + n) := u8_advance s.pc n
@[simp] theorem State.advance_fl (n : Nat) : (s.advance n).fl = s.fl := rfl
@[simp] theorem State.advance_mem (n : Nat) : (s.advance n).mem = s.mem := rfl
@[simp] theorem State.advance_run (n : Nat) : (s.advance n).run = s.run := rfl
@[simp] theorem State.advance_faultRecord (n : Nat) : (s.advance n).faultRecord = s.faultRecord := rfl
@[simp] theorem State.advance_output (n : Nat) : (s.advance n).output = s.output := rfl
@[simp] theorem State.advance_loaded (n : Nat) : (s.advance n).loaded = s.loaded := rfl

@[simp] theorem State.advance_reg (n : Nat) (j : Fin 8) : (s.advance n).reg j = s.reg j := rfl
@[simp] theorem State.advance_readMem (n : Nat) (x : Byte) : (s.advance n).readMem x = s.readMem x := rfl

@[simp] theorem State.raise_config (k : FaultKind) (p op : Byte) (info : Nat) : (s.raise k p op info).config = s.config := rfl
@[simp] theorem State.raise_regs (k : FaultKind) (p op : Byte) (info : Nat) : (s.raise k p op info).regs = s.regs := rfl
@[simp] theorem State.raise_pc (k : FaultKind) (p op : Byte) (info : Nat) : (s.raise k p op info).pc = s.pc := rfl
@[simp] theorem State.raise_fl (k : FaultKind) (p op : Byte) (info : Nat) : (s.raise k p op info).fl = s.fl := rfl
@[simp] theorem State.raise_mem (k : FaultKind) (p op : Byte) (info : Nat) : (s.raise k p op info).mem = s.mem := rfl
@[simp] theorem State.raise_run (k : FaultKind) (p op : Byte) (info : Nat) : (s.raise k p op info).run = .faulted := rfl
@[simp] theorem State.raise_faultRecord (k : FaultKind) (p op : Byte) (info : Nat) : (s.raise k p op info).faultRecord = some ⟨k, p, op, info⟩ := rfl
@[simp] theorem State.raise_output (k : FaultKind) (p op : Byte) (info : Nat) : (s.raise k p op info).output = s.output := rfl
@[simp] theorem State.raise_loaded (k : FaultKind) (p op : Byte) (info : Nat) : (s.raise k p op info).loaded = s.loaded := rfl

@[simp] theorem State.raise_reg (k : FaultKind) (p op : Byte) (info : Nat) (j : Fin 8) : (s.raise k p op info).reg j = s.reg j := rfl
@[simp] theorem State.raise_readMem (k : FaultKind) (p op : Byte) (info : Nat) (x : Byte) : (s.raise k p op info).readMem x = s.readMem x := rfl

@[simp] theorem State.dispatchFault_config (m : Mnemonic) (p : Byte) (k : FaultKind) (info : Nat) : (s.dispatchFault m p k info).config = s.config := rfl
@[simp] theorem State.dispatchFault_regs (m : Mnemonic) (p : Byte) (k : FaultKind) (info : Nat) : (s.dispatchFault m p k info).regs = s.regs := rfl
@[simp] theorem State.dispatchFault_pc (m : Mnemonic) (p : Byte) (k : FaultKind) (info : Nat) : (s.dispatchFault m p k info).pc = s.pc := rfl
@[simp] theorem State.dispatchFault_fl (m : Mnemonic) (p : Byte) (k : FaultKind) (info : Nat) : (s.dispatchFault m p k info).fl = s.fl := rfl
@[simp] theorem State.dispatchFault_mem (m : Mnemonic) (p : Byte) (k : FaultKind) (info : Nat) : (s.dispatchFault m p k info).mem = s.mem := rfl
@[simp] theorem State.dispatchFault_run (m : Mnemonic) (p : Byte) (k : FaultKind) (info : Nat) : (s.dispatchFault m p k info).run = .faulted := rfl
@[simp] theorem State.dispatchFault_faultRecord (m : Mnemonic) (p : Byte) (k : FaultKind) (info : Nat) : (s.dispatchFault m p k info).faultRecord = some ⟨k, p, m.opcode, info⟩ := rfl
@[simp] theorem State.dispatchFault_output (m : Mnemonic) (p : Byte) (k : FaultKind) (info : Nat) : (s.dispatchFault m p k info).output = s.output := rfl
@[simp] theorem State.dispatchFault_loaded (m : Mnemonic) (p : Byte) (k : FaultKind) (info : Nat) : (s.dispatchFault m p k info).loaded = s.loaded := rfl

@[simp] theorem State.dispatchFault_reg (m : Mnemonic) (p : Byte) (k : FaultKind) (info : Nat) (j : Fin 8) : (s.dispatchFault m p k info).reg j = s.reg j := rfl
@[simp] theorem State.dispatchFault_readMem (m : Mnemonic) (p : Byte) (k : FaultKind) (info : Nat) (x : Byte) : (s.dispatchFault m p k info).readMem x = s.readMem x := rfl

@[simp] theorem State.push_config (v : Byte) : (s.push v).config = s.config := rfl
@[simp] theorem State.push_regs (v : Byte) : (s.push v).regs = s.regs.set spIndex (u8 ((s.reg spIndex).toNat - 1)) := rfl
@[simp] theorem State.push_pc (v : Byte) : (s.push v).pc = s.pc := rfl
@[simp] theorem State.push_fl (v : Byte) : (s.push v).fl = s.fl := rfl
@[simp] theorem State.push_mem (v : Byte) : (s.push v).mem = s.mem.write (u8 ((s.reg spIndex).toNat - 1)) v := by
  simp [State.push, State.writeMem, State.setReg, State.reg]
@[simp] theorem State.push_run (v : Byte) : (s.push v).run = s.run := rfl
@[simp] theorem State.push_faultRecord (v : Byte) : (s.push v).faultRecord = s.faultRecord := rfl
@[simp] theorem State.push_output (v : Byte) : (s.push v).output = s.output := rfl
@[simp] theorem State.push_loaded (v : Byte) : (s.push v).loaded = s.loaded := rfl


@[simp] theorem State.pop_config : s.pop.2.config = s.config := by
  unfold State.pop; split <;> rfl
@[simp] theorem State.pop_pc : s.pop.2.pc = s.pc := by
  unfold State.pop; split <;> rfl
@[simp] theorem State.pop_fl : s.pop.2.fl = s.fl := by
  unfold State.pop; split <;> rfl
@[simp] theorem State.pop_mem : s.pop.2.mem = s.mem := by
  unfold State.pop; split <;> rfl
@[simp] theorem State.pop_run : s.pop.2.run = s.run := by
  unfold State.pop; split <;> rfl
@[simp] theorem State.pop_faultRecord : s.pop.2.faultRecord = s.faultRecord := by
  unfold State.pop; split <;> rfl
@[simp] theorem State.pop_output : s.pop.2.output = s.output := by
  unfold State.pop; split <;> rfl
@[simp] theorem State.pop_loaded : s.pop.2.loaded = s.loaded := by
  unfold State.pop; split <;> rfl

/-- Popping leaves every byte of memory. -/
@[simp] theorem State.pop_readMem (x : Byte) : s.pop.2.readMem x = s.readMem x :=
  State.readMem_congr s (State.pop_mem s) x

/-- What pop answers (41_stack.md R111). -/
@[simp] theorem State.pop_value : s.pop.1 = s.readMem (s.reg spIndex) := by
  unfold State.pop; split <;> rfl

end fields

end Sys2Proof.Machine
end

