-- ==== Sys2Proof/Laws/Ops.lean ====
section
/-! SUPPORT. One lemma for each shared operation that says what it can do: the stack primitives, the operand forms, the
conditional jump. -/

namespace Sys2Proof.Machine

section stack

variable (s : State) (v : Byte)

/-- Push decrements the stack pointer and leaves every other register (41_stack.md R110). -/
theorem State.push_reg (j : Fin 8) :
    (s.push v).reg j = if j = spIndex then s.reg spIndex - 1 else s.reg j := by
  have h : (s.push v).reg j = (s.setReg spIndex (u8 ((s.reg spIndex).toNat - 1))).reg j := rfl
  rw [h, State.reg_setReg, u8_sub_one]

/-- The byte pushed is read at the new stack pointer. -/
theorem State.push_readMem_same (h : s.mem.wf = true) : (s.push v).readMem (s.reg spIndex - 1) = v := by
  simp only [State.readMem, State.push_mem, u8_sub_one]
  exact Memory.read_write_same _ v h

/-- Push leaves every other byte of memory. -/
theorem State.push_readMem_ne {a : Byte} (h : a ≠ s.reg spIndex - 1) : (s.push v).readMem a = s.readMem a := by
  simp only [State.readMem, State.push_mem, u8_sub_one]
  exact Memory.read_write_ne _ v h

/-- Pop moves the stack pointer up by one below `SP_RESET`, else leaves it; no other register changes
(41_stack.md R111). -/
theorem State.pop_reg (j : Fin 8) :
    s.pop.2.reg j = if j = spIndex ∧ (s.reg spIndex).toNat < spReset.toNat then s.reg spIndex + 1 else s.reg j := by
  unfold State.pop
  split
  · next h => simp only [State.reg_setReg, u8_add_one, h, and_true]
  · next h => simp [h]

end stack

section operands

variable (m : Mnemonic) {a b : Byte} (s : State)

/-- An operand byte below 8 names the register of that number (30_encoding.md R64). -/
theorem registerOf_of_lt (h : a.toNat < 8) : registerOf a = some ⟨a.toNat, h⟩ := dif_pos h

/-- An operand byte of 8 or more names none. -/
theorem registerOf_of_not_lt (h : ¬ a.toNat < 8) : registerOf a = none := dif_neg h

/-- A valid operand: the behaviour runs at the advanced state. -/
theorem onRegister_of_lt (body : Fin 8 → State → State) (h : a.toNat < 8) :
    onRegister m a s body = .next (body ⟨a.toNat, h⟩ (s.advance m.operandCount)) := by
  simp only [onRegister, registerOf_of_lt h]

/-- An invalid operand: the fault of 30_encoding.md R75. -/
theorem onRegister_of_not_lt (body : Fin 8 → State → State) (h : ¬ a.toNat < 8) :
    onRegister m a s body =
      .next ((s.advance m.operandCount).dispatchFault m s.pc .invalidRegisterIndex a.toNat) := by
  simp only [onRegister, registerOf_of_not_lt h]

/-- Everything a one-register form can do. -/
theorem onRegister_cases {body : Fin 8 → State → State} {t : State} (h : onRegister m a s body = .next t) :
    (∃ ha : a.toNat < 8, t = body ⟨a.toNat, ha⟩ (s.advance m.operandCount)) ∨
      (¬ a.toNat < 8 ∧ t = (s.advance m.operandCount).dispatchFault m s.pc .invalidRegisterIndex a.toNat) := by
  by_cases ha : a.toNat < 8
  · rw [onRegister_of_lt m s body ha] at h
    cases h
    exact .inl ⟨ha, rfl⟩
  · rw [onRegister_of_not_lt m s body ha] at h
    cases h
    exact .inr ⟨ha, rfl⟩

/-- Two valid operands. -/
theorem onRegisters_of_lt (body : Fin 8 → Fin 8 → State → State) (ha : a.toNat < 8) (hb : b.toNat < 8) :
    onRegisters m a b s body = .next (body ⟨a.toNat, ha⟩ ⟨b.toNat, hb⟩ (s.advance m.operandCount)) := by
  simp only [onRegisters, registerOf_of_lt ha, registerOf_of_lt hb]

/-- An invalid operand A. -/
theorem onRegisters_of_not_lt_left (body : Fin 8 → Fin 8 → State → State) (ha : ¬ a.toNat < 8) :
    onRegisters m a b s body =
      .next ((s.advance m.operandCount).dispatchFault m s.pc .invalidRegisterIndex a.toNat) := by
  simp only [onRegisters, registerOf_of_not_lt ha]

/-- A valid operand A with an invalid operand B. -/
theorem onRegisters_of_not_lt_right (body : Fin 8 → Fin 8 → State → State) (ha : a.toNat < 8) (hb : ¬ b.toNat < 8) :
    onRegisters m a b s body =
      .next ((s.advance m.operandCount).dispatchFault m s.pc .invalidRegisterIndex b.toNat) := by
  simp only [onRegisters, registerOf_of_lt ha, registerOf_of_not_lt hb]

/-- Everything a two-register form can do. -/
theorem onRegisters_cases {body : Fin 8 → Fin 8 → State → State} {t : State}
    (h : onRegisters m a b s body = .next t) :
    (∃ (ha : a.toNat < 8) (hb : b.toNat < 8),
        t = body ⟨a.toNat, ha⟩ ⟨b.toNat, hb⟩ (s.advance m.operandCount)) ∨
      (¬ a.toNat < 8 ∧ t = (s.advance m.operandCount).dispatchFault m s.pc .invalidRegisterIndex a.toNat) ∨
      (a.toNat < 8 ∧ ¬ b.toNat < 8 ∧
        t = (s.advance m.operandCount).dispatchFault m s.pc .invalidRegisterIndex b.toNat) := by
  by_cases ha : a.toNat < 8
  · by_cases hb : b.toNat < 8
    · rw [onRegisters_of_lt m s body ha hb] at h
      cases h
      exact .inl ⟨ha, hb, rfl⟩
    · rw [onRegisters_of_not_lt_right m s body ha hb] at h
      cases h
      exact .inr (.inr ⟨ha, hb, rfl⟩)
  · rw [onRegisters_of_not_lt_left m s body ha] at h
    cases h
    exact .inr (.inl ⟨ha, rfl⟩)

end operands

/-- Everything a conditional jump can do (42_compare_branch.md R122). -/
theorem State.branchIf_cases (t : State) (m : Mnemonic) (p : Byte) (i : Fin 8) (cond : Byte → Bool) :
    (t.fl = none ∧ t.branchIf m p i cond = t.dispatchFault m p .flagsUndefined 0) ∨
      (∃ f, t.fl = some f ∧ cond f = true ∧ t.branchIf m p i cond = t.setPc (t.reg i)) ∨
      (∃ f, t.fl = some f ∧ cond f = false ∧ t.branchIf m p i cond = t) := by
  unfold State.branchIf
  cases hf : t.fl with
  | none => exact .inl ⟨rfl, rfl⟩
  | some f =>
    cases hc : cond f with
    | true => exact .inr (.inl ⟨f, rfl, hc, by simp [hc]⟩)
    | false => exact .inr (.inr ⟨f, rfl, hc, by simp [hc]⟩)

end Sys2Proof.Machine
end

