-- ==== Sys2Proof/Laws/Exec.lean ====
section
/-! SUPPORT. What executing an instruction can do, said once for all 29: it raises one of the dispatch faults of its form,
all of one shape, or it has its own effect on the advanced state. -/

namespace Sys2Proof.Machine

section equations

variable (a b imm : Byte) (s : State)

theorem exec_ldi : exec (.ldi a imm) s = onRegister .ldi a s (fun i t => t.setReg i imm) := rfl
theorem exec_prn : exec (.prn a) s = onRegister .prn a s (fun i t => t.out (t.reg i)) := rfl
theorem exec_push : exec (.push a) s = onRegister .push a s (fun i t => t.push (t.reg i)) := rfl
theorem exec_pop : exec (.pop a) s = onRegister .pop a s (fun i t => t.pop.2.setReg i t.pop.1) := rfl
theorem exec_cmp :
    exec (.cmp a b) s = onRegisters .cmp a b s (fun i j t => t.setFlags (compareFlags (t.reg i) (t.reg j))) := rfl
theorem exec_jmp : exec (.jmp a) s = onRegister .jmp a s (fun i t => t.setPc (t.reg i)) := rfl
theorem exec_jeq : exec (.jeq a) s = onRegister .jeq a s (fun i t => t.branchIf .jeq s.pc i flagE) := rfl
theorem exec_jne :
    exec (.jne a) s = onRegister .jne a s (fun i t => t.branchIf .jne s.pc i (fun f => !flagE f)) := rfl
theorem exec_call : exec (.call a) s = onRegister .call a s (fun i t => (t.push t.pc).setPc (t.reg i)) := rfl
theorem exec_ret : exec .ret s = onF0 .ret s fun t => t.pop.2.setPc t.pop.1 := rfl
theorem exec_hlt : exec .hlt s = onF0 .hlt s State.halt := rfl
theorem exec_add : exec (.add a b) s = onRegisters .add a b s (fun i j t => t.alu2 i j aluAdd) := rfl
theorem exec_sub : exec (.sub a b) s = onRegisters .sub a b s (fun i j t => t.alu2 i j aluSub) := rfl
theorem exec_mul : exec (.mul a b) s = onRegisters .mul a b s (fun i j t => t.alu2 i j aluMul) := rfl
theorem exec_mod :
    exec (.mod a b) s = onRegisters .mod a b s (fun i j t =>
      if t.reg j = 0 then t.dispatchFault .mod s.pc .divisionByZero 0 else t.alu2 i j aluMod) := rfl
theorem exec_inc : exec (.inc a) s = onRegister .inc a s (fun i t => t.alu1 i aluInc) := rfl
theorem exec_dec : exec (.dec a) s = onRegister .dec a s (fun i t => t.alu1 i aluDec) := rfl
theorem exec_and : exec (.and a b) s = onRegisters .and a b s (fun i j t => t.alu2 i j aluAnd) := rfl
theorem exec_or : exec (.or a b) s = onRegisters .or a b s (fun i j t => t.alu2 i j aluOr) := rfl
theorem exec_xor : exec (.xor a b) s = onRegisters .xor a b s (fun i j t => t.alu2 i j aluXor) := rfl
theorem exec_not : exec (.not a) s = onRegister .not a s (fun i t => t.alu1 i aluNot) := rfl
theorem exec_shl : exec (.shl a b) s = onRegisters .shl a b s (fun i j t => t.alu2 i j aluShl) := rfl
theorem exec_shr : exec (.shr a b) s = onRegisters .shr a b s (fun i j t => t.alu2 i j aluShr) := rfl
theorem exec_jgt : exec (.jgt a) s = extBranch .jgt a s flagG := rfl
theorem exec_jlt : exec (.jlt a) s = extBranch .jlt a s flagL := rfl
theorem exec_jle : exec (.jle a) s = extBranch .jle a s (fun f => flagL f || flagE f) := rfl
theorem exec_jge : exec (.jge a) s = extBranch .jge a s (fun f => flagG f || flagE f) := rfl
theorem exec_int : exec (.int a) s = unsupported .int s := rfl
theorem exec_iret : exec .iret s = unsupported .iret s := rfl

end equations

/-- The state after the decoder has passed the instruction. -/
def past (i : Instr) (s : State) : State := s.advance i.mnemonic.operandCount

/-- A conditional jump whose flags have a value. -/
def BranchEffect (i : Fin 8) (cond : Byte → Bool) (u t : State) : Prop :=
  ∃ f, u.fl = some f ∧ ((cond f = true ∧ t = u.setPc (u.reg i)) ∨ (cond f = false ∧ t = u))

/-- `u` is the advanced state, and `t` what the instruction's own effect makes of it. -/
def Effect : Instr → State → State → Prop
  | .ldi a imm, u, t => ∃ ha : a.toNat < 8, t = u.setReg ⟨a.toNat, ha⟩ imm
  | .prn a, u, t => ∃ ha : a.toNat < 8, t = u.out (u.reg ⟨a.toNat, ha⟩)
  | .push a, u, t => ∃ ha : a.toNat < 8, t = u.push (u.reg ⟨a.toNat, ha⟩)
  | .pop a, u, t => ∃ ha : a.toNat < 8, t = u.pop.2.setReg ⟨a.toNat, ha⟩ u.pop.1
  | .cmp a b, u, t => ∃ (ha : a.toNat < 8) (hb : b.toNat < 8),
      t = u.setFlags (compareFlags (u.reg ⟨a.toNat, ha⟩) (u.reg ⟨b.toNat, hb⟩))
  | .jmp a, u, t => ∃ ha : a.toNat < 8, t = u.setPc (u.reg ⟨a.toNat, ha⟩)
  | .jeq a, u, t => ∃ ha : a.toNat < 8, BranchEffect ⟨a.toNat, ha⟩ flagE u t
  | .jne a, u, t => ∃ ha : a.toNat < 8, BranchEffect ⟨a.toNat, ha⟩ (fun f => !flagE f) u t
  | .call a, u, t => ∃ ha : a.toNat < 8, t = (u.push u.pc).setPc (u.reg ⟨a.toNat, ha⟩)
  | .ret, u, t => t = u.pop.2.setPc u.pop.1
  | .hlt, u, t => t = u.halt
  | .add a b, u, t => ∃ (ha : a.toNat < 8) (hb : b.toNat < 8), t = u.alu2 ⟨a.toNat, ha⟩ ⟨b.toNat, hb⟩ aluAdd
  | .sub a b, u, t => ∃ (ha : a.toNat < 8) (hb : b.toNat < 8), t = u.alu2 ⟨a.toNat, ha⟩ ⟨b.toNat, hb⟩ aluSub
  | .mul a b, u, t => ∃ (ha : a.toNat < 8) (hb : b.toNat < 8), t = u.alu2 ⟨a.toNat, ha⟩ ⟨b.toNat, hb⟩ aluMul
  | .mod a b, u, t => ∃ (ha : a.toNat < 8) (hb : b.toNat < 8),
      u.reg ⟨b.toNat, hb⟩ ≠ 0 ∧ t = u.alu2 ⟨a.toNat, ha⟩ ⟨b.toNat, hb⟩ aluMod
  | .inc a, u, t => ∃ ha : a.toNat < 8, t = u.alu1 ⟨a.toNat, ha⟩ aluInc
  | .dec a, u, t => ∃ ha : a.toNat < 8, t = u.alu1 ⟨a.toNat, ha⟩ aluDec
  | .and a b, u, t => ∃ (ha : a.toNat < 8) (hb : b.toNat < 8), t = u.alu2 ⟨a.toNat, ha⟩ ⟨b.toNat, hb⟩ aluAnd
  | .or a b, u, t => ∃ (ha : a.toNat < 8) (hb : b.toNat < 8), t = u.alu2 ⟨a.toNat, ha⟩ ⟨b.toNat, hb⟩ aluOr
  | .xor a b, u, t => ∃ (ha : a.toNat < 8) (hb : b.toNat < 8), t = u.alu2 ⟨a.toNat, ha⟩ ⟨b.toNat, hb⟩ aluXor
  | .not a, u, t => ∃ ha : a.toNat < 8, t = u.alu1 ⟨a.toNat, ha⟩ aluNot
  | .shl a b, u, t => ∃ (ha : a.toNat < 8) (hb : b.toNat < 8), t = u.alu2 ⟨a.toNat, ha⟩ ⟨b.toNat, hb⟩ aluShl
  | .shr a b, u, t => ∃ (ha : a.toNat < 8) (hb : b.toNat < 8), t = u.alu2 ⟨a.toNat, ha⟩ ⟨b.toNat, hb⟩ aluShr
  | .jgt a, u, t => ∃ ha : a.toNat < 8, BranchEffect ⟨a.toNat, ha⟩ flagG u t
  | .jlt a, u, t => ∃ ha : a.toNat < 8, BranchEffect ⟨a.toNat, ha⟩ flagL u t
  | .jle a, u, t => ∃ ha : a.toNat < 8, BranchEffect ⟨a.toNat, ha⟩ (fun f => flagL f || flagE f) u t
  | .jge a, u, t => ∃ ha : a.toNat < 8, BranchEffect ⟨a.toNat, ha⟩ (fun f => flagG f || flagE f) u t
  | .int _, _, _ => False
  | .iret, _, _ => False

/-- The dispatch faults: which kind carries which information (60_exceptions.md R200). -/
def DispatchInfo (i : Instr) (k : FaultKind) (info : Nat) : Prop :=
  (k = .unsupportedOperation ∧ info = i.mnemonic.opcode.toNat) ∨ (k = .divisionByZero ∧ info = 0) ∨
    (k = .invalidRegisterIndex ∧ 8 ≤ info ∧ info ≤ 255) ∨ (k = .flagsUndefined ∧ info = 0)

/-- `t` is the advanced state with a dispatch fault of `i` raised at `s`. -/
def DispatchFaulted (i : Instr) (s t : State) : Prop :=
  ∃ k info, DispatchInfo i k info ∧ t = (past i s).dispatchFault i.mnemonic s.pc k info

section forms

variable {a b : Byte} {s t : State}

/-- The two ways a one-register instruction ends. -/
theorem exec_form1 (i : Instr) {body : Fin 8 → State → State}
    (h : onRegister i.mnemonic a s body = .next t) :
    DispatchFaulted i s t ∨ ∃ ha : a.toNat < 8, t = body ⟨a.toNat, ha⟩ (past i s) := by
  rcases onRegister_cases _ s h with ⟨ha, rfl⟩ | ⟨ha, rfl⟩
  · exact .inr ⟨ha, rfl⟩
  · exact .inl ⟨_, _, .inr (.inr (.inl ⟨rfl, by omega, by have := a.isLt; omega⟩)), rfl⟩

/-- The two ways a two-register instruction ends. -/
theorem exec_form2 (i : Instr) {body : Fin 8 → Fin 8 → State → State}
    (h : onRegisters i.mnemonic a b s body = .next t) :
    DispatchFaulted i s t ∨ ∃ (ha : a.toNat < 8) (hb : b.toNat < 8), t = body ⟨a.toNat, ha⟩ ⟨b.toNat, hb⟩ (past i s) := by
  rcases onRegisters_cases _ s h with ⟨ha, hb, rfl⟩ | ⟨ha, rfl⟩ | ⟨ha, hb, rfl⟩
  · exact .inr ⟨ha, hb, rfl⟩
  · exact .inl ⟨_, _, .inr (.inr (.inl ⟨rfl, by omega, by have := a.isLt; omega⟩)), rfl⟩
  · exact .inl ⟨_, _, .inr (.inr (.inl ⟨rfl, by omega, by have := b.isLt; omega⟩)), rfl⟩

/-- The ways a conditional jump ends. -/
theorem exec_branch (i : Instr) {cond : Byte → Bool}
    (h : onRegister i.mnemonic a s (fun r u => u.branchIf i.mnemonic s.pc r cond) = .next t) :
    DispatchFaulted i s t ∨ ∃ ha : a.toNat < 8, BranchEffect ⟨a.toNat, ha⟩ cond (past i s) t := by
  rcases exec_form1 i h with h | ⟨ha, rfl⟩
  · exact .inl h
  · rcases (past i s).branchIf_cases i.mnemonic s.pc ⟨a.toNat, ha⟩ cond with ⟨_, e⟩ | ⟨f, hf, hc, e⟩ | ⟨f, hf, hc, e⟩
    · exact .inl ⟨_, _, .inr (.inr (.inr ⟨rfl, rfl⟩)), e⟩
    · exact .inr ⟨ha, f, hf, .inl ⟨hc, e⟩⟩
    · exact .inr ⟨ha, f, hf, .inr ⟨hc, e⟩⟩

/-- The ways an extended jump ends. -/
theorem exec_extBranch (i : Instr) {cond : Byte → Bool} (h : extBranch i.mnemonic a s cond = .next t) :
    DispatchFaulted i s t ∨ ∃ ha : a.toNat < 8, BranchEffect ⟨a.toNat, ha⟩ cond (past i s) t := by
  unfold extBranch at h
  split at h
  · cases h; exact .inl ⟨_, _, .inl ⟨rfl, rfl⟩, rfl⟩
  · exact exec_branch i h

end forms

/-- Everything executing an instruction can do. -/
theorem exec_cases {i : Instr} {s t : State} (h : exec i s = .next t) :
    DispatchFaulted i s t ∨ Effect i (past i s) t := by
  cases i with
  | ldi a imm => exact exec_form1 (.ldi a imm) ((exec_ldi a imm s).symm.trans h)
  | prn a => exact exec_form1 (.prn a) ((exec_prn a s).symm.trans h)
  | push a => exact exec_form1 (.push a) ((exec_push a s).symm.trans h)
  | pop a => exact exec_form1 (.pop a) ((exec_pop a s).symm.trans h)
  | cmp a b => exact exec_form2 (.cmp a b) ((exec_cmp a b s).symm.trans h)
  | jmp a => exact exec_form1 (.jmp a) ((exec_jmp a s).symm.trans h)
  | jeq a => exact exec_branch (.jeq a) ((exec_jeq a s).symm.trans h)
  | jne a => exact exec_branch (.jne a) ((exec_jne a s).symm.trans h)
  | call a => exact exec_form1 (.call a) ((exec_call a s).symm.trans h)
  | ret => cases h; exact .inr rfl
  | hlt => cases h; exact .inr rfl
  | add a b => exact exec_form2 (.add a b) ((exec_add a b s).symm.trans h)
  | sub a b => exact exec_form2 (.sub a b) ((exec_sub a b s).symm.trans h)
  | mul a b => exact exec_form2 (.mul a b) ((exec_mul a b s).symm.trans h)
  | mod a b => 
    rcases exec_form2 (.mod a b) ((exec_mod a b s).symm.trans h) with h | ⟨ha, hb, e⟩
    · exact .inl h
    · split at e
      · exact .inl ⟨_, _, .inr (.inl ⟨rfl, rfl⟩), e⟩
      · next hz => exact .inr ⟨ha, hb, hz, e⟩
  | inc a => exact exec_form1 (.inc a) ((exec_inc a s).symm.trans h)
  | dec a => exact exec_form1 (.dec a) ((exec_dec a s).symm.trans h)
  | and a b => exact exec_form2 (.and a b) ((exec_and a b s).symm.trans h)
  | or a b => exact exec_form2 (.or a b) ((exec_or a b s).symm.trans h)
  | xor a b => exact exec_form2 (.xor a b) ((exec_xor a b s).symm.trans h)
  | not a => exact exec_form1 (.not a) ((exec_not a s).symm.trans h)
  | shl a b => exact exec_form2 (.shl a b) ((exec_shl a b s).symm.trans h)
  | shr a b => exact exec_form2 (.shr a b) ((exec_shr a b s).symm.trans h)
  | jgt a => exact exec_extBranch (.jgt a) ((exec_jgt a s).symm.trans h)
  | jlt a => exact exec_extBranch (.jlt a) ((exec_jlt a s).symm.trans h)
  | jle a => exact exec_extBranch (.jle a) ((exec_jle a s).symm.trans h)
  | jge a => exact exec_extBranch (.jge a) ((exec_jge a s).symm.trans h)
  | int a => cases h; exact .inl ⟨_, _, .inl ⟨rfl, rfl⟩, rfl⟩
  | iret => cases h; exact .inl ⟨_, _, .inl ⟨rfl, rfl⟩, rfl⟩

/-- A dispatch fault leaves everything but `pc`, the run state and the fault record (60_exceptions.md R202). -/
theorem DispatchFaulted.keeps {i : Instr} {s t : State} (h : DispatchFaulted i s t) :
    t.regs = s.regs ∧ t.fl = s.fl ∧ t.mem = s.mem ∧ t.output = s.output ∧ t.loaded = s.loaded ∧
      t.config = s.config ∧ t.run = .faulted ∧ t.pc = s.pc + BitVec.ofNat 8 i.length ∧ t.faultRecord.isSome = true := by
  obtain ⟨k, info, -, rfl⟩ := h
  simp [past, Instr.length]

/-- The advanced state differs in `pc` alone. -/
theorem past_keeps (i : Instr) (s : State) :
    (past i s).regs = s.regs ∧ (past i s).fl = s.fl ∧ (past i s).mem = s.mem ∧ (past i s).output = s.output ∧
      (past i s).loaded = s.loaded ∧ (past i s).config = s.config ∧ (past i s).run = s.run ∧
      (past i s).faultRecord = s.faultRecord ∧ (past i s).pc = s.pc + BitVec.ofNat 8 i.length := by
  simp [past, Instr.length]

end Sys2Proof.Machine
end

