-- ==== Sys2Proof/Laws/Fetch.lean ====
section
/-! SUPPORT. What fetching can answer (30_encoding.md R69), and what an enabled or a disabled step is. -/

namespace Sys2Proof.Machine

/-- Everything a fetch that fails can leave: the two decode faults, with `pc` unchanged, and the fault of an unlisted
opcode, with `pc` advanced (30_encoding.md R70, R71, 20_memory.md R46). -/
theorem State.fetch_error {s t : State} (h : s.fetch = .error t) :
    let op := s.readMem s.pc
    (operandCount op = 3 ∧ t = s.raise .unsupportedOperation s.pc op op.toNat) ∨
      (operandCount op ≠ 3 ∧ s.overflows (operandCount op) = true ∧
        t = s.raise .addressOutOfRange s.pc op (s.pc.toNat + 1 + operandCount op)) ∨
      (operandCount op ≠ 3 ∧ s.overflows (operandCount op) = false ∧
        t = (s.advance (operandCount op)).raise .unsupportedOperation s.pc op op.toNat) := by
  simp only [State.fetch] at h
  split at h
  · next hn => cases h; exact .inl ⟨hn, rfl⟩
  · next hn =>
    split at h
    · next ho => cases h; exact .inr (.inl ⟨hn, ho, rfl⟩)
    · next ho =>
      split at h
      · cases h
      · cases h; exact .inr (.inr ⟨hn, by simpa using ho, rfl⟩)

/-- What a fetch that gives an instruction has read. -/
theorem State.fetch_ok {s : State} {i : Instr} (h : s.fetch = .ok i) :
    operandCount (s.readMem s.pc) ≠ 3 ∧ s.overflows (operandCount (s.readMem s.pc)) = false ∧
      ∃ rest, decode (s.instrBytes (operandCount (s.readMem s.pc))) = .ok (i, rest) := by
  simp only [State.fetch] at h
  split at h
  · cases h
  · next hn =>
    split at h
    · cases h
    · next ho =>
      split at h
      · next j rest hd => cases h; exact ⟨hn, by simpa using ho, rest, hd⟩
      · cases h

/-- The first byte fetched is the opcode byte at `pc`. -/
theorem State.instrBytes_head (s : State) (n : Nat) :
    ∃ ops, s.instrBytes n = s.readMem s.pc :: ops := by
  refine ⟨((List.range n).map Nat.succ).map fun (k : Nat) => s.readMem (u8 (s.pc.toNat + k)), ?_⟩
  simp [State.instrBytes, List.range_succ_eq_map]

/-- A step that is not enabled does nothing (70_reset_and_hazards.md R234). -/
theorem step_of_not_enabled {s : State} (h : s.stepEnabled = false) : step s = .next s := by
  simp [step, h]

/-- A step whose fetch faults answers the faulted state. -/
theorem step_of_fetch_error {s t : State} (he : s.stepEnabled = true) (h : s.fetch = .error t) :
    step s = .next t := by
  simp [step, he, h]

/-- A step whose fetch gives an instruction executes it. -/
theorem step_of_fetch_ok {s : State} {i : Instr} (he : s.stepEnabled = true) (h : s.fetch = .ok i) :
    step s = exec i s := by
  simp [step, he, h]

/-- A step is enabled in `Running` with a program loaded (30_encoding.md R69). -/
theorem State.stepEnabled_iff (s : State) : s.stepEnabled = true ↔ s.run = .running ∧ s.loaded = true := by
  simp [State.stepEnabled]

/-- Everything a step can be. -/
theorem step_cases (s : State) :
    (s.stepEnabled = false ∧ step s = .next s) ∨
      (s.stepEnabled = true ∧ ∃ t, s.fetch = .error t ∧ step s = .next t) ∨
      (s.stepEnabled = true ∧ ∃ i, s.fetch = .ok i ∧ step s = exec i s) := by
  cases he : s.stepEnabled with
  | false => exact .inl ⟨rfl, step_of_not_enabled he⟩
  | true =>
    cases hf : s.fetch with
    | error t => exact .inr (.inl ⟨rfl, t, rfl, step_of_fetch_error he hf⟩)
    | ok i => exact .inr (.inr ⟨rfl, i, rfl, step_of_fetch_ok he hf⟩)

end Sys2Proof.Machine
end

