-- ==== Sys2Proof/Laws/PerInstr.lean ====
section
/-! SUPPORT. One fact for every instruction, proved instruction by instruction: its encoding is as long as its opcode
byte's top bits say (30_encoding.md R61). -/

namespace Sys2Proof.Laws.EncodedLength

/-- The encoding's length is one more than bits 7:6 of its first byte, and that length is `Instr.length`. -/
def Statement (i : Instr) : Prop :=
  (encode i).length = 1 + operandCount i.mnemonic.opcode ∧ (encode i).length = i.length

/-- The table's rows agree with their formats, so the fact holds of every row at once. -/
theorem of_table (i : Instr) : Statement i := by
  constructor <;> simp [encode, Instr.length, Nat.add_comm]

theorem ldi (a imm : Byte) : Statement (.ldi a imm) := of_table _
theorem prn (a : Byte) : Statement (.prn a) := of_table _
theorem push (a : Byte) : Statement (.push a) := of_table _
theorem pop (a : Byte) : Statement (.pop a) := of_table _
theorem cmp (a b : Byte) : Statement (.cmp a b) := of_table _
theorem jmp (a : Byte) : Statement (.jmp a) := of_table _
theorem jeq (a : Byte) : Statement (.jeq a) := of_table _
theorem jne (a : Byte) : Statement (.jne a) := of_table _
theorem call (a : Byte) : Statement (.call a) := of_table _
theorem ret : Statement (.ret) := of_table _
theorem hlt : Statement (.hlt) := of_table _
theorem add (a b : Byte) : Statement (.add a b) := of_table _
theorem sub (a b : Byte) : Statement (.sub a b) := of_table _
theorem mul (a b : Byte) : Statement (.mul a b) := of_table _
theorem mod (a b : Byte) : Statement (.mod a b) := of_table _
theorem inc (a : Byte) : Statement (.inc a) := of_table _
theorem dec (a : Byte) : Statement (.dec a) := of_table _
theorem and (a b : Byte) : Statement (.and a b) := of_table _
theorem or (a b : Byte) : Statement (.or a b) := of_table _
theorem xor (a b : Byte) : Statement (.xor a b) := of_table _
theorem not (a : Byte) : Statement (.not a) := of_table _
theorem shl (a b : Byte) : Statement (.shl a b) := of_table _
theorem shr (a b : Byte) : Statement (.shr a b) := of_table _
theorem jgt (a : Byte) : Statement (.jgt a) := of_table _
theorem jlt (a : Byte) : Statement (.jlt a) := of_table _
theorem jle (a : Byte) : Statement (.jle a) := of_table _
theorem jge (a : Byte) : Statement (.jge a) := of_table _
theorem int (a : Byte) : Statement (.int a) := of_table _
theorem iret : Statement (.iret) := of_table _

end Sys2Proof.Laws.EncodedLength
end

