-- ==== Sys2Proof/Tests/Slice0.lean ====
section
/-! SUPPORT. Tests whose expected results come from spec/ (30_encoding.md R67, the vectors V1 to V98 of
95_test_vectors.md, or a rule's own example), and a witness for the hypotheses of each statement of
Certificates/Slice0/Obligations.lean that has some. -/

namespace Sys2Proof.Tests

open Sys2Proof Sys2Proof.Machine

/-! ### Helpers -/

/-- The next state, if there is one. -/
def nextOf : Result → Option State
  | .next t => some t
  | .fault _ => none
  | .refused _ => none

/-- A loaded, running core at `p` with these registers. -/
def at' (p : Byte) (regs : Vector Byte 8) (fl : Option Byte) : State :=
  { State.reset with pc := p, regs := regs, fl := fl, loaded := true }

/-- The registers after reset, but for R0, R1 and R2. -/
def regs3 (a b c : Byte) : Vector Byte 8 := #v[a, b, c, 0, 0, 0, 0, 0xF4]

/-- The registers after reset, but for R1 and R7. -/
def stackRegs (b sp : Byte) : Vector Byte 8 := #v[5, b, 0, 0, 0, 0, 0, sp]

/-- A machine with other parameters. -/
def withConfig (s : State) (ao : AddrOverflow) (eb : ExtBranches) : State :=
  { s with config := ⟨ao, .undefined, eb⟩ }

/-- One step of `s` with an instruction's bytes at its `pc` (zeros after a shorter one), seen through `f`. -/
def stepWith {α : Type} (s : State) (op a b : Byte) (f : State → α) : Option α :=
  (nextOf (step (s.placeInstr op a b))).map f

/-- `x[0]` and `pc` after a step. -/
def r0pc (t : State) : Byte × Byte := (t.reg 0, t.pc)

/-- The fault record and `pc` after a step. -/
def faultPc (t : State) : Option FaultRecord × Byte := (t.faultRecord, t.pc)

/-- `x[0]` and `FL` after the two-operand ALU instruction `op` on R0 and R1. -/
def alu (op u w : Byte) : Option (Byte × Option Byte) :=
  stepWith (at' 0 (regs3 u w 0) none) op 0 1 fun t => (t.reg 0, t.fl)

/-- `x[0]` and `FL` after the one-operand ALU instruction `op` on R0. -/
def alu1 (op u : Byte) : Option (Byte × Option Byte) :=
  stepWith (at' 0 (regs3 u 0 0) none) op 0 0 fun t => (t.reg 0, t.fl)

/-! ### The smoke test of WellFormed: each check refuses a term, and the largest register passes -/

theorem test_wf_refuses_operand_A_of_one_register_forms :
    ([.prn 8, .push 8, .pop 9, .jmp 255, .jeq 8, .jne 8, .call 16, .inc 8, .dec 8, .not 8, .jgt 8, .jlt 8, .jle 8,
      .jge 8, .int 8] : List Instr).any (fun i => i.wellFormed) = false := by decide

theorem test_wf_refuses_operand_A_of_ldi : (Instr.ldi 8 0).wellFormed = false := by decide

theorem test_wf_refuses_operand_A_of_two_register_forms :
    ([.cmp 8 0, .add 8 0, .sub 8 0, .mul 8 0, .mod 8 0, .and 8 0, .or 8 0, .xor 8 0, .shl 8 0, .shr 8 0] :
      List Instr).any (fun i => i.wellFormed) = false := by decide

theorem test_wf_refuses_operand_B_of_two_register_forms :
    ([.cmp 0 8, .add 0 8, .sub 0 8, .mul 0 8, .mod 0 8, .and 0 8, .or 0 8, .xor 0 8, .shl 0 8, .shr 0 8] :
      List Instr).any (fun i => i.wellFormed) = false := by decide

theorem test_wf_accepts_the_largest_register_and_any_immediate :
    ([.ldi 7 255, .prn 7, .cmp 7 7, .shr 7 7, .int 7, .ret, .hlt, .iret] : List Instr).all (fun i => i.wellFormed) =
      true := by decide

/-! ### Words written out from the table of 30_encoding.md R67 -/

theorem test_decode_load_print :
    decode [0b10000010, 0b00000000, 0b11111111] = .ok (.ldi 0 255, []) ∧
    decode [0b01000111, 0b00000011] = .ok (.prn 3, []) := by decide

theorem test_decode_stack :
    decode [0b01000101, 0b00000000] = .ok (.push 0, []) ∧ decode [0b01000110, 0b00000001] = .ok (.pop 1, []) := by decide

theorem test_decode_compare_branch :
    decode [0b10100111, 0b00000000, 0b00000001] = .ok (.cmp 0 1, []) ∧
    decode [0b01010100, 0b00000010] = .ok (.jmp 2, []) ∧ decode [0b01010101, 0b00000010] = .ok (.jeq 2, []) ∧
    decode [0b01010110, 0b00000010] = .ok (.jne 2, []) := by decide

theorem test_decode_call_return_halt :
    decode [0b01010000, 0b00000001] = .ok (.call 1, []) ∧ decode [0b00010001] = .ok (.ret, []) ∧
    decode [0b00000001] = .ok (.hlt, []) := by decide

theorem test_decode_alu_arithmetic :
    decode [0b10100000, 0b00000000, 0b00000001] = .ok (.add 0 1, []) ∧
    decode [0b10100001, 0b00000000, 0b00000001] = .ok (.sub 0 1, []) ∧
    decode [0b10100010, 0b00000000, 0b00000001] = .ok (.mul 0 1, []) ∧
    decode [0b10100100, 0b00000000, 0b00000010] = .ok (.mod 0 2, []) ∧
    decode [0b01100101, 0b00000011] = .ok (.inc 3, []) ∧ decode [0b01100110, 0b00000000] = .ok (.dec 0, []) := by decide

theorem test_decode_alu_logic :
    decode [0b10101000, 0b00000000, 0b00000001] = .ok (.and 0 1, []) ∧
    decode [0b10101010, 0b00000000, 0b00000001] = .ok (.or 0 1, []) ∧
    decode [0b10101011, 0b00000000, 0b00000001] = .ok (.xor 0 1, []) ∧
    decode [0b01101001, 0b00000000] = .ok (.not 0, []) ∧
    decode [0b10101100, 0b00000000, 0b00000010] = .ok (.shl 0 2, []) ∧
    decode [0b10101101, 0b00000000, 0b00000010] = .ok (.shr 0 2, []) := by decide

theorem test_decode_declared :
    decode [0b01010111, 0b00000010] = .ok (.jgt 2, []) ∧ decode [0b01011000, 0b00000010] = .ok (.jlt 2, []) ∧
    decode [0b01011001, 0b00000010] = .ok (.jle 2, []) ∧ decode [0b01011010, 0b00000010] = .ok (.jge 2, []) ∧
    decode [0b01010010, 0b00000000] = .ok (.int 0, []) ∧ decode [0b00010011] = .ok (.iret, []) := by decide

theorem test_decode_leaves_the_bytes_after : decode [0x45, 0x07, 0x01, 0x02] = .ok (.push 7, [0x01, 0x02]) := by decide

theorem test_decode_refuses_by_name :
    decode [] = .error .noBytes ∧ decode [0x00] = .error (.unknownOpcode 0x00) ∧
    decode [0xA3, 0, 1] = .error (.unknownOpcode 0xA3) ∧ decode [0xC0] = .error (.operandCountThree 0xC0) ∧
    decode [0xFF, 0, 0] = .error (.operandCountThree 0xFF) ∧ decode [0x82, 0] = .error (.truncated 0x82) := by decide

theorem test_decodeTableWord_numbers_bits_from_the_first_byte :
    decodeTableWord 24 0xC80382 = some (.ldi 3 200) ∧ decodeTableWord 16 0x0745 = some (.push 7) ∧
    decodeTableWord 8 0x11 = some .ret ∧ decodeTableWord 8 0xC0 = none := by decide

theorem test_decodeTableWord_zeroes_the_bits_above_nbits :
    decodeTableWord 8 0xFFFF82 = some (.ldi 0 0) ∧ decodeTableWord 16 0xFF0847 = some (.prn 8) := by decide

/-! ### One step from reset with a placed word -/

theorem test_placed_ldi_runs_from_reset :
    (nextOf (step (State.reset.withFetchWord 24 0xFF0082))).map r0pc = some (255, 3) := by decide

theorem test_reset_itself_executes_nothing : nextOf (step State.reset) = some State.reset := by decide

/-! ### 40_load_print.md -/

/-- V3: the stack moves. -/
theorem test_ldi_R7 : stepWith (at' 0 resetRegs none) 0x82 7 0xFF (fun t => (t.reg 7, t.pc)) = some (0xFF, 3) := by decide

/-- V4. -/
theorem test_ldi_R8_faults :
    stepWith (at' 0 resetRegs none) 0x82 8 5 (fun t => (faultPc t, t.regs)) =
      some ((some ⟨.invalidRegisterIndex, 0, 0x82, 8⟩, 3), resetRegs) := by decide

/-- V6. -/
theorem test_prn_255 :
    stepWith (at' 0 #v[0, 0, 0, 255, 0, 0, 0, 0xF4] none) 0x47 3 0 (fun t => (t.output, t.pc)) = some ([255], 2) := by
  decide

/-- V8. -/
theorem test_prn_R9_faults :
    stepWith (at' 0 resetRegs none) 0x47 9 0 (fun t => (faultPc t, t.output)) =
      some ((some ⟨.invalidRegisterIndex, 0, 0x47, 9⟩, 2), []) := by decide

/-! ### 41_stack.md -/

/-- V10: the decrement wraps. -/
theorem test_push_wraps :
    stepWith (at' 0 (stackRegs 9 0) none) 0x45 1 0 (fun t => (t.reg 7, t.readMem 0xFF)) = some (0xFF, 9) := by decide

/-- V12. -/
theorem test_push_R7 :
    stepWith (at' 0 resetRegs none) 0x45 7 0 (fun t => (t.reg 7, t.readMem 0xF3)) = some (0xF3, 0xF4) := by decide

/-- V15: no increment above `0xF4`. -/
theorem test_pop_above_the_bound :
    stepWith { at' 0 (stackRegs 9 0xFF) none with mem := [(0xFF, 9)] } 0x46 2 0 (fun t => (t.reg 2, t.reg 7)) =
      some (9, 0xFF) := by decide

/-- V16. -/
theorem test_pop_R7 :
    stepWith { at' 0 (stackRegs 9 0xF3) none with mem := [(0xF3, 7)] } 0x46 7 0 (fun t => t.reg 7) = some 7 := by decide

/-! ### 42_compare_branch.md -/

/-- V19: the compare is unsigned. -/
theorem test_cmp_0_255 : stepWith (at' 0 (regs3 0 255 0) none) 0xA7 0 1 State.fl = some (some 0x04) := by decide

/-- V21a. -/
theorem test_cmp_R8_faults :
    stepWith (at' 0 resetRegs (some 2)) 0xA7 0 8 (fun t => (faultPc t, t.fl)) =
      some ((some ⟨.invalidRegisterIndex, 0, 0xA7, 8⟩, 3), some 2) := by decide

/-- V22. -/
theorem test_jmp : stepWith (at' 20 (regs3 0 0 9) none) 0x54 2 0 State.pc = some 9 := by decide

/-- V24, V25. -/
theorem test_jeq_both_ways :
    stepWith (at' 10 (regs3 0 0 20) (some 1)) 0x55 2 0 State.pc = some 20 ∧
    stepWith (at' 10 (regs3 0 0 20) (some 4)) 0x55 2 0 State.pc = some 12 := by decide

/-- V26. -/
theorem test_jeq_without_flags_faults :
    stepWith (at' 10 (regs3 0 0 20) none) 0x55 2 0 faultPc = some (some ⟨.flagsUndefined, 10, 0x55, 0⟩, 12) := by decide

/-- V28, V29, V29a. -/
theorem test_jne_both_ways :
    stepWith (at' 10 (regs3 0 0 9) (some 2)) 0x56 2 0 State.pc = some 9 ∧
    stepWith (at' 10 (regs3 0 0 9) (some 1)) 0x56 2 0 State.pc = some 12 ∧
    stepWith (at' 10 (regs3 0 0 9) (some 0)) 0x56 2 0 State.pc = some 9 := by decide

/-! ### 43_call_return_halt.md -/

/-- V30. -/
theorem test_call :
    stepWith (at' 6 (stackRegs 11 0xF4) none) 0x50 1 0 (fun t => (t.reg 7, t.readMem 0xF3, t.pc)) =
      some (0xF3, 8, 11) := by decide

/-- V31. -/
theorem test_call_R7 :
    stepWith (at' 0 resetRegs none) 0x50 7 0 (fun t => (t.reg 7, t.readMem 0xF3, t.pc)) = some (0xF3, 2, 0xF4) := by
  decide

/-- V32, V33. -/
theorem test_ret :
    stepWith { at' 0 (stackRegs 0 0xF3) none with mem := [(0xF3, 8)] } 0x11 0 0 (fun t => (t.pc, t.reg 7)) =
      some (8, 0xF4) ∧
    stepWith (at' 0 resetRegs none) 0x11 0 0 (fun t => (t.pc, t.reg 7)) = some (0, 0xF4) := by decide

/-- V34. -/
theorem test_hlt : stepWith (at' 0 resetRegs none) 0x01 0 0 (fun t => (t.run, t.pc)) = some (.halted, 1) := by decide

/-- V35, V36. -/
theorem test_hlt_at_255 :
    stepWith (at' 255 resetRegs none) 0x01 0 0 faultPc = some (some ⟨.addressOutOfRange, 255, 0x01, 256⟩, 255) ∧
    stepWith (withConfig (at' 255 resetRegs none) .wrap .unimplemented) 0x01 0 0 (fun t => (t.run, t.pc)) =
      some (.halted, 0) := by decide

/-! ### 44_alu.md -/

/-- V41, V42. -/
theorem test_add_wraps : alu 0xA0 200 100 = some (44, none) ∧ alu 0xA0 255 1 = some (0, none) := by decide

/-- V43. -/
theorem test_add_to_itself : stepWith (at' 0 (regs3 0x80 0 0) none) 0xA0 0 0 r0pc = some (0, 3) := by decide

/-- V45, V46. -/
theorem test_sub_wraps : alu 0xA1 3 5 = some (254, none) ∧ alu 0xA1 0 255 = some (1, none) := by decide

/-- V50, V51. -/
theorem test_mul_keeps_the_low_byte : alu 0xA2 15 17 = some (255, none) ∧ alu 0xA2 255 255 = some (1, none) := by decide

/-- V52, V54. -/
theorem test_mod : alu 0xA4 42 5 = some (2, none) ∧ alu 0xA4 5 7 = some (5, none) := by decide

/-- V56. -/
theorem test_mod_by_zero_faults :
    stepWith (at' 0 (regs3 5 0 0) none) 0xA4 0 1 (fun t => (faultPc t, t.reg 0)) =
      some ((some ⟨.divisionByZero, 0, 0xA4, 0⟩, 3), 5) := by decide

/-- V58, V59. -/
theorem test_inc : alu1 0x65 41 = some (42, none) ∧ alu1 0x65 255 = some (0, none) := by decide

/-- V60, V61. -/
theorem test_dec : alu1 0x66 3 = some (2, none) ∧ alu1 0x66 0 = some (255, none) := by decide

/-- V62, V63, V64. -/
theorem test_and_or_xor :
    alu 0xA8 0xF0 0x3C = some (0x30, none) ∧ alu 0xAA 0xF0 0x0C = some (0xFC, none) ∧
    alu 0xAB 0xF0 0x3C = some (0xCC, none) := by decide

/-- V66, V67. -/
theorem test_not : alu1 0x69 0 = some (0xFF, none) ∧ alu1 0x69 0xAA = some (0x55, none) := by decide

/-- V70, V71, V73. -/
theorem test_shl :
    alu 0xAC 0xFF 1 = some (0xFE, none) ∧ alu 0xAC 1 8 = some (0, none) ∧ alu 0xAC 1 255 = some (0, none) := by decide

/-- V75, V76, V77. -/
theorem test_shr :
    alu 0xAD 0xFF 4 = some (0x0F, none) ∧ alu 0xAD 0x80 8 = some (0, none) ∧ alu 0xAD 5 0 = some (5, none) := by decide

/-! ### 45_unimplemented.md -/

/-- `pc` after a conditional jump of 45_unimplemented.md on R2 = 30 at address 10, under `EXT_BRANCHES = Implemented`. -/
def extJump (op f : Byte) : Option Byte :=
  stepWith (withConfig (at' 10 (regs3 0 0 30) (some f)) .fault .implemented) op 2 0 State.pc

/-- V81, and the rule's other side. -/
theorem test_jgt : extJump 0x57 2 = some 30 ∧ extJump 0x57 1 = some 12 ∧ extJump 0x57 4 = some 12 := by decide

/-- V82, and the rule's other side. -/
theorem test_jlt : extJump 0x58 4 = some 30 ∧ extJump 0x58 1 = some 12 ∧ extJump 0x58 2 = some 12 := by decide

/-- V83, and R172's other cases. -/
theorem test_jle : extJump 0x59 1 = some 30 ∧ extJump 0x59 4 = some 30 ∧ extJump 0x59 2 = some 12 := by decide

/-- V84, and R173's other cases. -/
theorem test_jge : extJump 0x5A 4 = some 12 ∧ extJump 0x5A 1 = some 30 ∧ extJump 0x5A 2 = some 30 := by decide

/-- V80, V86. -/
theorem test_extended_jumps_disabled :
    stepWith (at' 10 (regs3 0 0 30) (some 2)) 0x57 2 0 faultPc =
      some (some ⟨.unsupportedOperation, 10, 0x57, 0x57⟩, 12) ∧
    stepWith (at' 0 resetRegs (some 2)) 0x5A 9 0 faultPc = some (some ⟨.unsupportedOperation, 0, 0x5A, 0x5A⟩, 2) := by
  decide

/-- V87. -/
theorem test_int :
    stepWith (at' 0 resetRegs none) 0x52 0 0 faultPc = some (some ⟨.unsupportedOperation, 0, 0x52, 0x52⟩, 2) := by decide

/-- V88. -/
theorem test_iret :
    stepWith (at' 5 resetRegs none) 0x13 0 0 faultPc = some (some ⟨.unsupportedOperation, 5, 0x13, 0x13⟩, 6) := by decide

/-! ### Decoding in a step, and the priority of faults -/

/-- V90, V91, V93. -/
theorem test_bytes_that_spell_no_instruction :
    stepWith (at' 0 resetRegs none) 0x00 0 0 faultPc = some (some ⟨.unsupportedOperation, 0, 0x00, 0⟩, 1) ∧
    stepWith (at' 0 resetRegs none) 0xC0 0 0 faultPc = some (some ⟨.unsupportedOperation, 0, 0xC0, 0xC0⟩, 0) ∧
    stepWith (at' 0 resetRegs none) 0xA3 0 1 faultPc = some (some ⟨.unsupportedOperation, 0, 0xA3, 0xA3⟩, 3) := by decide

/-- V95, V96. -/
theorem test_ldi_at_254 :
    stepWith (at' 254 resetRegs none) 0x82 0 7 faultPc = some (some ⟨.addressOutOfRange, 254, 0x82, 257⟩, 254) ∧
    stepWith (withConfig (at' 254 resetRegs none) .wrap .unimplemented) 0x82 0 7 r0pc = some (7, 1) := by decide

/-- V97, V98. -/
theorem test_priority :
    stepWith (at' 253 resetRegs none) 0x82 9 0 faultPc = some (some ⟨.addressOutOfRange, 253, 0x82, 256⟩, 253) ∧
    stepWith (at' 255 resetRegs none) 0xC5 0 0 faultPc = some (some ⟨.unsupportedOperation, 255, 0xC5, 0xC5⟩, 255) := by
  decide

/-! ### The host's transactions -/

/-- 70_reset_and_hazards.md R233: a comment, outer blanks, an empty line, and bit 7 first. -/
theorem test_program_text :
    programBytes "10000010 # LDI\n\n  00000001\t\n# done".toList = .ok [0x82, 0x01] ∧
    programBytes "1000001".toList = .error .malformedProgramLine ∧ programBytes "# x\n".toList = .error .loadFailure := by
  decide

/-- T8, by `load` and `run()`. -/
theorem test_load_and_run_halt :
    ((State.reset.load [0x01]).toOption.bind fun s => s.runFor 1).map (fun t => (t.runReport, t.pc, t.output)) =
      some ((.halted, none), 1, []) := by decide

/-- 30_encoding.md R76: the three ways to write an immediate. -/
theorem test_assembler :
    assembleLine "LDI R3, 0xC8".toList = some (.ldi 3 200) ∧ assembleLine "LDI R3, 0b11".toList = some (.ldi 3 3) ∧
    assembleLine "XOR R0, R7".toList = some (.xor 0 7) ∧ assembleLine "PRN R8".toList = none ∧
    assembleLine "LDI R0, 256".toList = none := by decide

/-! ### Witnesses: states and operands that meet the hypotheses of the statements

`runningAt p op a b` has the three bytes stored at `p`, and below a clause's boundary values are taken. -/

/-- A loaded, running core at `p` with an instruction's bytes there. -/
def runningAt (p op a b : Byte) : State := (at' p (regs3 5 9 0) (some 1)).placeInstr op a b

/-- The same, with addresses that wrap. -/
def wrappingAt (p op a b : Byte) : State := withConfig (runningAt p op a b) .wrap .unimplemented

/-- The state after a fault of the program byte `op`. -/
def faultedState : State := (State.reset.placeInstr 0 0 0).raise .unsupportedOperation 0 0 0

theorem witness_EncodeInvertsDecode : decode [0x82, 3, 200, 7] = .ok (.ldi 3 200, [7]) := by decide

theorem witness_AssemblerReadsBackItsLines : (Instr.ldi 7 255).wellFormed = true := by decide

theorem witness_ResetLeavesTheSpecsValues :
    Config.default.flReset = .undefined ∧ (⟨.fault, .zero, .unimplemented⟩ : Config).flReset = .zero := by decide

theorem witness_NothingRunsBeforeALoad : State.reset.loaded = false := by decide

theorem witness_LoadCopiesTheProgram_accepted :
    State.reset.mem.wf = true ∧ State.reset.loaded = false ∧ 1 ≤ [(0x01 : Byte)].length ∧
    1 ≤ (List.replicate 256 (0x01 : Byte)).length ∧ (List.replicate 256 (0x01 : Byte)).length ≤ 256 ∧
    [(0x01 : Byte)].length ≤ (1 : Byte).toNat := by
  simp only [List.length_replicate]; decide

theorem witness_LoadCopiesTheProgram_refused :
    ([] : List Byte).length = 0 ∧ 256 < (List.replicate 257 (0x01 : Byte)).length ∧
    (runningAt 0 1 0 0).mem.wf = true ∧ (runningAt 0 1 0 0).loaded = true := by
  simp only [List.length_replicate]; decide

theorem witness_ProgramTextGivesItsBytes :
    [(0x01 : Byte)] ≠ [] ∧
    (stripLine "0000000".toList ≠ [] ∧ (stripLine "0000000".toList).length ≠ 8) ∧
    (stripLine "000000000".toList ≠ [] ∧ (stripLine "000000000".toList).length ≠ 8) ∧
    (stripLine "00000002".toList ≠ [] ∧ ∃ c ∈ stripLine "00000002".toList, c ≠ '0' ∧ c ≠ '1') :=
  ⟨by decide, by decide, by decide, by decide, '2', by decide, by decide⟩

theorem witness_RunIsRepeatedSteps :
    ((runningAt 0 1 0 0).runFor 1).isSome = true ∧ State.reset.runFor 0 = some State.reset ∧
    ((runningAt 0 1 0 0).stepTimes 1).map State.stepEnabled = some false := by decide

theorem witness_InspectionShowsAllState :
    State.reset.mem.wf = true ∧ State.reset.inspect = State.reset.inspect ∧ State.reset.output = State.reset.output ∧
    State.reset.config = State.reset.config := by refine ⟨?_, rfl, rfl, rfl⟩; decide

/-- The last address a three-byte instruction may start at, and one that runs over the end where addresses wrap. -/
theorem witness_StepRunsTheDecodedInstruction :
    (let s := runningAt 252 0x82 0 7
     s.run = .running ∧ s.loaded = true ∧ decode [s.readMem s.pc, s.readMem (s.pc + 1), s.readMem (s.pc + 2)] =
       .ok (.ldi 0 7, []) ∧ s.fits (Instr.ldi 0 7).mnemonic.operandCount) ∧
    (let s := wrappingAt 254 0x82 0 7
     s.run = .running ∧ s.loaded = true ∧ decode [s.readMem s.pc, s.readMem (s.pc + 1), s.readMem (s.pc + 2)] =
       .ok (.ldi 0 7, []) ∧ s.fits (Instr.ldi 0 7).mnemonic.operandCount) :=
  ⟨⟨by decide, by decide, by decide, .inr (by decide)⟩, ⟨by decide, by decide, by decide, .inl (by decide)⟩⟩

theorem witness_PlacedWordRunsNext :
    State.reset.mem.wf = true ∧ decodeTableWord 24 0x070082 = some (.ldi 0 7) ∧
    State.reset.fits (Instr.ldi 0 7).mnemonic.operandCount := ⟨by decide, by decide, .inr (by decide)⟩

theorem witness_HaltedAndFaultedAbsorb :
    ({ runningAt 0 1 0 0 with run := .halted } : State).run ≠ .running ∧ faultedState.run ≠ .running ∧
    (runningAt 0 1 0 0).run = .running ∧ (nextOf (step (runningAt 0 1 0 0))).map State.run = some .halted := by decide

theorem witness_OperandCountThreeFaultsAtDecode :
    (runningAt 7 0xC0 0 0).run = .running ∧ (runningAt 7 0xC0 0 0).loaded = true ∧
    0xC0 ≤ ((runningAt 7 0xC0 0 0).readMem 7).toNat ∧ 0xC0 ≤ ((runningAt 255 0xFF 0 0).readMem 255).toNat := by decide

theorem witness_UnlistedOpcodesFaultAtDispatch :
    (runningAt 0 0xA3 0 0).run = .running ∧ (runningAt 0 0xA3 0 0).loaded = true ∧
    (∀ m : Mnemonic, m.opcode ≠ (runningAt 0 0xA3 0 0).readMem 0) ∧
    operandCount ((runningAt 0 0xA3 0 0).readMem 0) ≠ 3 ∧
    (runningAt 0 0xA3 0 0).fits (operandCount ((runningAt 0 0xA3 0 0).readMem 0)) :=
  ⟨by decide, by decide, by intro m; cases m <;> decide, by decide, .inr (by decide)⟩

/-- The first address past the end, and the last: 256 and 258. -/
theorem witness_InstructionPastTheEndFollowsTheParameter_fault :
    (runningAt 255 1 0 0).run = .running ∧ (runningAt 255 1 0 0).loaded = true ∧
    (runningAt 255 1 0 0).config.addrOverflow = .fault ∧ operandCount ((runningAt 255 1 0 0).readMem 255) ≠ 3 ∧
    255 < 255 + 1 + operandCount ((runningAt 255 1 0 0).readMem 255) ∧
    255 < 253 + 1 + operandCount ((runningAt 253 0x82 0 0).readMem 253) ∧
    255 + 1 + operandCount ((runningAt 255 0x82 0 0).readMem 255) = 258 := by decide

theorem witness_InstructionPastTheEndFollowsTheParameter_wrap :
    let s := wrappingAt 254 0x82 0 7
    s.run = .running ∧ s.loaded = true ∧ s.config.addrOverflow = .wrap ∧
    decode ((List.range 3).map fun k => s.readMem (BitVec.ofNat 8 ((s.pc.toNat + k) % 256))) = .ok (.ldi 0 7, []) ∧
    setsPc (.ldi 0 7) = false := by decide

theorem witness_PcAdvancesPastTheInstruction :
    setsPc (.ldi 0 7) = false ∧ (nextOf (exec (.ldi 0 7) (runningAt 0 0x82 0 7))).isSome = true ∧
    setsPc .iret = false ∧ (nextOf (exec .iret State.reset)).isSome = true := by decide

/-- A loaded, running state with a compare behind it meets the invariant, and a step of it answers a next state. -/
theorem witness_StepKeepsInvariant :
    (runningAt 0 0x82 0 7).Inv ∧ (nextOf (step (runningAt 0 0x82 0 7))).isSome = true :=
  ⟨⟨by decide, (by intro f h; cases h; decide), by decide, by decide, by decide, (by intro r h; cases h),
    (by intro h; cases h)⟩, by decide⟩

theorem witness_StepsKeepLoadedAndParameters : (nextOf (step (runningAt 0 0x82 0 7))).isSome = true := by decide

theorem witness_OneFaultAtMost : faultedState.Inv ∧ faultedState.faultRecord = some ⟨.unsupportedOperation, 0, 0, 0⟩ :=
  ⟨⟨by decide, (by intro f h; cases h), by decide, by decide, by decide, (by intro r h; cases h; rfl),
    (by intro h; cases h)⟩, by decide⟩

theorem witness_FlagsWrittenByCompareReadByJumps_written :
    (nextOf (exec (.cmp 0 1) State.reset)).map (fun t => decide (t.fl ≠ State.reset.fl)) = some true ∧
    (7 : Byte).toNat < 8 ∧ (nextOf (exec (.cmp 7 7) State.reset)).isSome = true ∧
    (nextOf (exec (.cmp 7 7) { State.reset with fl := some 4 })).isSome = true := by decide

theorem witness_FlagsWrittenByCompareReadByJumps_read :
    testsFlags (Instr.add 0 1).mnemonic = false ∧ disabledIn State.reset.config (Instr.jgt 0).mnemonic = true ∧
    (nextOf (exec (.add 0 1) State.reset)).isSome = true ∧
    testsFlags (Instr.jeq 7).mnemonic = true ∧ disabledIn State.reset.config (Instr.jeq 7).mnemonic = false ∧
    (Instr.jeq 7).wellFormed = true ∧ State.reset.run = .running := by decide

theorem witness_OutputWrittenOnlyByPrint :
    (nextOf (exec (.prn 7) State.reset)).map (fun t => decide (t.output ≠ State.reset.output)) = some true := by decide

theorem witness_MemoryWrittenOnlyByPushAndCall :
    (nextOf (exec (.push 7) State.reset)).map (fun t => decide (t.readMem 0xF3 ≠ State.reset.readMem 0xF3)) = some true := by
  decide

theorem witness_RegistersWrittenOnlyByTheirInstructions :
    (nextOf (exec (.ldi 0 7) State.reset)).map (fun t => decide (t.reg 0 ≠ State.reset.reg 0)) = some true ∧
    (nextOf (exec (.push 0) State.reset)).map (fun t => decide (t.reg 7 ≠ State.reset.reg 7)) = some true := by decide

/-- A decode fault of each kind, and a dispatch fault. -/
theorem witness_FaultChangesOnlyRecordAndPc :
    (runningAt 0 0xC0 0 0).run = .running ∧
    (nextOf (step (runningAt 0 0xC0 0 0))).map State.run = some .faulted ∧
    (nextOf (step (runningAt 255 0x01 0 0))).map State.run = some .faulted ∧
    (nextOf (step (runningAt 0 0x47 8 0))).map State.run = some .faulted := by decide

theorem witness_FaultPriorityOrder_decode :
    (runningAt 0 0xC0 0 0).run = .running ∧ (runningAt 0 0xC0 0 0).loaded = true ∧
    operandCount ((runningAt 0 0xC0 0 0).readMem 0) = 3 ∧
    operandCount ((runningAt 255 0xA3 0 0).readMem 255) ≠ 3 ∧ (runningAt 255 0xA3 0 0).config.addrOverflow = .fault ∧
    255 < 255 + 1 + operandCount ((runningAt 255 0xA3 0 0).readMem 255) := by decide

theorem witness_FaultPriorityOrder_table :
    operandCount ((runningAt 252 0xA3 8 8).readMem 252) ≠ 3 ∧
    (runningAt 252 0xA3 8 8).fits (operandCount ((runningAt 252 0xA3 8 8).readMem 252)) ∧
    (∀ m : Mnemonic, m.opcode ≠ (runningAt 252 0xA3 8 8).readMem 252) ∧
    Mnemonic.jge.opcode = (runningAt 0 0x5A 8 0).readMem 0 ∧
    disabledIn (runningAt 0 0x5A 8 0).config .jge = true :=
  ⟨by decide, .inr (by decide), by intro m; cases m <;> decide, by decide, by decide⟩

theorem witness_FaultPriorityOrder_operands :
    Mnemonic.mod.opcode = (runningAt 0 0xA4 8 8).readMem 0 ∧ (runningAt 0 0xA4 8 8).fits 2 ∧
    disabledIn (runningAt 0 0xA4 8 8).config .mod = false ∧ 7 < ((runningAt 0 0xA4 8 8).readMem 1).toNat ∧
    Mnemonic.mod.format = .f2rr ∧ ((runningAt 0 0xA4 7 8).readMem 1).toNat ≤ 7 ∧
    7 < ((runningAt 0 0xA4 7 8).readMem 2).toNat :=
  ⟨by decide, .inr (by decide), by decide, by decide, by decide, by decide, by decide⟩

theorem witness_FaultPriorityOrder_execute :
    Mnemonic.jeq.opcode = ({ runningAt 0 0x55 7 0 with fl := none } : State).readMem 0 ∧
    testsFlags .jeq = true ∧ ((runningAt 0 0x55 7 0).readMem 1).toNat ≤ 7 ∧
    ({ runningAt 0 0x55 7 0 with fl := none } : State).fl = none ∧
    Mnemonic.mod.opcode = (runningAt 0 0xA4 7 6).readMem 0 ∧ ((runningAt 0 0xA4 7 6).readMem 2).toNat < 8 ∧
    (runningAt 0 0xA4 7 6).reg 6 = 0 := by decide

/-- Operand A ill-formed, operand B alone ill-formed, and an operand of a jump. -/
theorem witness_IllFormedInstructionsFault :
    disabledIn State.reset.config (Instr.add 8 9).mnemonic = false ∧
    (Instr.add 8 9).registerOperands.find? (fun x => !registerByteOk x) = some 8 ∧
    (Instr.add 7 255).registerOperands.find? (fun x => !registerByteOk x) = some 255 ∧
    (Instr.jeq 8).registerOperands.find? (fun x => !registerByteOk x) = some 8 := by decide

theorem witness_HaltRule :
    State.reset.run = .running ∧ (nextOf (exec .hlt State.reset)).map State.run = some .halted := by decide

/-! The register operands of an instruction's own rule are taken at both sides of the check: 7 names a register, 8 does
not. -/

theorem witness_LoadImmediateRule : (7 : Byte).toNat < 8 ∧ 7 < (8 : Byte).toNat := by decide

theorem witness_PrintNumericRule : (7 : Byte).toNat < 8 ∧ 7 < (8 : Byte).toNat := by decide

theorem witness_JumpRule : (7 : Byte).toNat < 8 ∧ 7 < (8 : Byte).toNat := by decide

theorem witness_CompareRule : (7 : Byte).toNat < 8 ∧ (0 : Byte).toNat ≤ 7 ∧ 7 < (8 : Byte).toNat := by decide

theorem witness_CompareLeavesOneFlag :
    (7 : Byte).toNat < 8 ∧ (6 : Byte).toNat < 8 ∧ (nextOf (exec (.cmp 7 6) State.reset)).isSome = true ∧
    (nextOf (exec (.cmp 7 7) State.reset)).isSome = true := by decide

theorem witness_PushRule : (7 : Byte).toNat < 8 ∧ 7 < (8 : Byte).toNat ∧ (at' 0 (stackRegs 9 0) none).mem.wf = true := by
  decide

theorem witness_PopRule :
    (7 : Byte).toNat < 8 ∧ (6 : Byte) ≠ 7 ∧ 7 < (8 : Byte).toNat ∧
    ((at' 0 (stackRegs 9 0xF3) none).reg 7).toNat < 0xF4 ∧ ¬ ((at' 0 (stackRegs 9 0xF4) none).reg 7).toNat < 0xF4 := by
  decide

/-- Stack pointers on both sides of the range of 41_stack.md R114. -/
theorem witness_PushThenPopRoundTrip :
    (6 : Byte).toNat < 8 ∧ (6 : Byte) ≠ 7 ∧ (at' 0 (stackRegs 9 0) none).mem.wf = true ∧
    spAfterPushPop 0 = 0xFF ∧ spAfterPushPop 1 = 1 ∧ spAfterPushPop 0xF4 = 0xF4 ∧ spAfterPushPop 0xF5 = 0xF4 := by decide

theorem witness_PushedByteIsFetchedNext :
    let s := { at' 6 #v[1, 0, 0, 0, 0, 0, 0, 9] none with mem := [(6, 0x45)] }
    (0 : Byte).toNat < 8 ∧ s.mem.wf = true ∧ s.run = .running ∧ s.loaded = true ∧ s.reg 7 - 1 = s.pc + 2 ∧
    s.reg 0 = 0x01 ∧ (nextOf (exec (.push 0) s)).map (fun t => decide (t.pc.toNat + 1 + 0 ≤ 255)) = some true := by decide

theorem witness_EqualityJumpRules :
    (7 : Byte).toNat < 8 ∧ 7 < (8 : Byte).toNat ∧ State.reset.fl = none ∧ (runningAt 0 0x55 0 0).fl = some 1 ∧
    (1 : Byte).getLsbD 0 = true ∧ (4 : Byte).getLsbD 0 = false := by decide

theorem witness_CallRule : (7 : Byte).toNat < 8 ∧ 7 < (8 : Byte).toNat ∧ State.reset.mem.wf = true := by decide

theorem witness_CallThenReturnComesBack : (7 : Byte).toNat < 8 ∧ State.reset.mem.wf = true := by decide

theorem witness_ModularArithmeticRules : (7 : Byte).toNat < 8 ∧ (7 : Byte).toNat ≤ 7 ∧ 7 < (8 : Byte).toNat := by decide

theorem witness_OneOperandAluRules : (7 : Byte).toNat < 8 ∧ 7 < (8 : Byte).toNat := by decide

theorem witness_BitwiseRules : (7 : Byte).toNat < 8 ∧ (7 : Byte).toNat ≤ 7 ∧ 7 < (8 : Byte).toNat := by decide

theorem witness_ShiftRules : (7 : Byte).toNat < 8 ∧ (7 : Byte).toNat ≤ 7 ∧ 7 < (8 : Byte).toNat := by decide

theorem witness_RemainderRule :
    (7 : Byte).toNat < 8 ∧ 7 < (8 : Byte).toNat ∧ (State.reset.reg 7).toNat ≠ 0 ∧ State.reset.reg 6 = 0 := by decide

theorem witness_ShiftByEightOrMoreGivesZero :
    let s := at' 0 (regs3 255 8 255) none
    (1 : Byte).toNat < 8 ∧ (0 : Byte).toNat < 8 ∧ 8 ≤ (s.reg 1).toNat ∧ 8 ≤ (s.reg 2).toNat ∧
    (nextOf (exec (.shl 0 1) s)).isSome = true ∧ (nextOf (exec (.shr 0 2) s)).isSome = true := by decide

theorem witness_ExtendedJumpRules :
    let s := withConfig (at' 10 resetRegs (some 2)) .fault .implemented
    s.config.extBranches = .implemented ∧ (7 : Byte).toNat < 8 ∧ 7 < (8 : Byte).toNat ∧ s.fl = some 2 ∧
    (withConfig State.reset .fault .implemented).fl = none ∧ (2 : Byte).getLsbD 1 = true ∧ (4 : Byte).getLsbD 2 = true ∧
    (1 : Byte).getLsbD 0 = true ∧ State.reset.config.extBranches = .unimplemented := by decide

end Sys2Proof.Tests
end

/-! PROOFS of the family 10_state.md: which instructions write `FL`, which read it, and the registers after reset. -/

namespace Sys2Proof.Machine

/-! ### Registers after reset -/

/-- The register file of R24, whatever the parameters. -/
theorem State.resetWith_reg (c : Config) (i : Fin 8) : (State.resetWith c).reg i = if i = 7 then 0xF4 else 0 := by
  have hregs : ∀ j : Fin 8, resetRegs[j] = if j = 7 then 0xF4 else 0 := by decide
  exact hregs i

/-- Settles O6: `State.reset` is the reset state of the default parameters. -/
theorem resetRegisters : Obligations.ResetRegisters :=
  ⟨State.resetWith_reg, State.resetWith_reg Config.default⟩

/-! ### Writing `FL` -/

/-- A conditional jump that does not fault leaves `FL`. -/
theorem BranchEffect.fl {i : Fin 8} {cond : Byte → Bool} {u t : State} (h : BranchEffect i cond u t) : t.fl = u.fl := by
  obtain ⟨f, -, ⟨-, rfl⟩ | ⟨-, rfl⟩⟩ := h <;> rfl

/-- No instruction's own effect but compare's changes `FL` (10_state.md R30). -/
theorem Effect.fl {i : Instr} {u t : State} (hi : ∀ a b, i ≠ .cmp a b) (h : Effect i u t) : t.fl = u.fl := by
  cases i with
  | cmp a b => exact absurd rfl (hi a b)
  | ldi | prn | push | jmp | call | inc | dec | not => obtain ⟨_, rfl⟩ := h; rfl
  | add | sub | mul | and | or | xor | shl | shr => obtain ⟨_, _, rfl⟩ := h; rfl
  | mod => obtain ⟨_, _, -, rfl⟩ := h; rfl
  | pop => obtain ⟨_, rfl⟩ := h; exact State.pop_fl _
  | ret => cases h; exact State.pop_fl _
  | hlt => cases h; rfl
  | jeq | jne | jgt | jlt | jle | jge => obtain ⟨_, h⟩ := h; exact h.fl
  | int | iret => exact h.elim

/-- Executing anything but a compare leaves `FL`, faulting or not. -/
theorem exec_fl {i : Instr} {s t : State} (hi : ∀ a b, i ≠ .cmp a b) (h : exec i s = .next t) : t.fl = s.fl := by
  rcases exec_cases h with hf | he
  · obtain ⟨-, hfl, -⟩ := hf.keeps
    exact hfl
  · exact (he.fl hi).trans (State.advance_fl s _)

/-- Compare on two registers that exist gives one state, with a value in `FL`, from states that differ in `FL` alone. -/
theorem exec_cmp_overwrites_fl {a b : Byte} {s t u : State} {f : Option Byte} (ha : a.toNat < 8) (hb : b.toNat < 8)
    (ht : exec (.cmp a b) s = .next t) (hu : exec (.cmp a b) { s with fl := f } = .next u) : t = u ∧ t.fl ≠ none := by
  rw [exec_cmp, onRegisters_of_lt _ _ _ ha hb] at ht hu
  cases ht
  cases hu
  exact ⟨rfl, Option.some_ne_none _⟩

/-! ### Not reading `FL` -/

/-- `u` is `t` but for the value of `FL`. -/
def SameButFlags (t u : State) : Prop := { u with fl := t.fl } = t

/-- States that differ in `FL` alone have one run state. -/
theorem SameButFlags.run {t u : State} (h : SameButFlags t u) : u.run = t.run := by
  have hrun : State.run { u with fl := t.fl } = t.run := congrArg State.run h
  exact hrun

/-- A behaviour that does the same whatever `FL` holds. -/
def BlindToFlags (body : State → State) : Prop :=
  ∀ (s : State) (f : Option Byte), SameButFlags (body s) (body { s with fl := f })

/-- Pop reads and writes everything but `FL`. -/
theorem pop_with_fl (s : State) (f : Option Byte) :
    State.pop { s with fl := f } = (s.pop.1, { s.pop.2 with fl := f }) := by
  unfold State.pop
  by_cases h : (s.reg spIndex).toNat < spReset.toNat
  · rw [if_pos h]; exact if_pos h
  · rw [if_neg h]; exact if_neg h

section blind

variable {m : Mnemonic} {a b : Byte} {s t : State} (f : Option Byte)

/-- A one-register instruction is as blind to `FL` as its behaviour; its operand check never looks at `FL`. -/
theorem onRegister_sameButFlags {body : Fin 8 → State → State} (hb : ∀ i, BlindToFlags (body i))
    (h : onRegister m a s body = .next t) :
    ∃ u, onRegister m a { s with fl := f } body = .next u ∧ SameButFlags t u := by
  rcases onRegister_cases m s h with ⟨ha, rfl⟩ | ⟨ha, rfl⟩
  · exact ⟨_, onRegister_of_lt m _ body ha, hb _ _ f⟩
  · exact ⟨_, onRegister_of_not_lt m _ body ha, rfl⟩

/-- A two-register instruction is as blind to `FL` as its behaviour. -/
theorem onRegisters_sameButFlags {body : Fin 8 → Fin 8 → State → State} (hb : ∀ i j, BlindToFlags (body i j))
    (h : onRegisters m a b s body = .next t) :
    ∃ u, onRegisters m a b { s with fl := f } body = .next u ∧ SameButFlags t u := by
  rcases onRegisters_cases m s h with ⟨ha, hb', rfl⟩ | ⟨ha, rfl⟩ | ⟨ha, hb', rfl⟩
  · exact ⟨_, onRegisters_of_lt m _ body ha hb', hb _ _ _ f⟩
  · exact ⟨_, onRegisters_of_not_lt_left m _ body ha, rfl⟩
  · exact ⟨_, onRegisters_of_not_lt_right m _ body ha hb', rfl⟩

/-- An instruction with no operand is as blind to `FL` as its behaviour. -/
theorem onF0_sameButFlags {body : State → State} (hb : BlindToFlags body) (h : onF0 m s body = .next t) :
    ∃ u, onF0 m { s with fl := f } body = .next u ∧ SameButFlags t u := by
  cases h
  exact ⟨_, rfl, hb _ f⟩

/-- An opcode that is not enabled faults whatever `FL` holds. -/
theorem unsupported_sameButFlags (h : unsupported m s = .next t) :
    ∃ u, unsupported m { s with fl := f } = .next u ∧ SameButFlags t u := by
  cases h
  exact ⟨_, rfl, rfl⟩

/-- Without `EXT_BRANCHES` an extended jump is an opcode that is not enabled (30_encoding.md R72). -/
theorem extBranch_of_unimplemented (cond : Byte → Bool) (h : s.config.extBranches = .unimplemented) :
    extBranch m a s cond = unsupported m s := by
  simp only [extBranch, h]

/-- An extended jump that is not enabled faults whatever `FL` holds. -/
theorem extBranch_sameButFlags {cond : Byte → Bool} (hc : decide (s.config.extBranches = .unimplemented) = true)
    (h : extBranch m a s cond = .next t) :
    ∃ u, extBranch m a { s with fl := f } cond = .next u ∧ SameButFlags t u := by
  have hc : s.config.extBranches = .unimplemented := of_decide_eq_true hc
  rw [extBranch_of_unimplemented cond hc] at h
  rw [extBranch_of_unimplemented (s := { s with fl := f }) cond hc]
  exact unsupported_sameButFlags f h

end blind

/-- Every instruction but an enabled conditional jump does the same whatever `FL` holds. -/
theorem exec_sameButFlags {i : Instr} {s t : State} (f : Option Byte)
    (hi : testsFlags i.mnemonic = true → disabledIn s.config i.mnemonic = true) (h : exec i s = .next t) :
    ∃ u, exec i { s with fl := f } = .next u ∧ SameButFlags t u := by
  cases i with
  | ldi | prn | push | jmp | call | inc | dec | not =>
    simp only [exec_ldi, exec_prn, exec_push, exec_jmp, exec_call, exec_inc, exec_dec, exec_not] at h ⊢
    exact onRegister_sameButFlags f (fun _ _ _ => rfl) h
  | cmp | add | sub | mul | and | or | xor | shl | shr =>
    simp only [exec_cmp, exec_add, exec_sub, exec_mul, exec_and, exec_or, exec_xor, exec_shl, exec_shr] at h ⊢
    exact onRegisters_sameButFlags f (fun _ _ _ _ => rfl) h
  | mod =>
    rw [exec_mod] at h ⊢
    refine onRegisters_sameButFlags f (fun i j u g => ?_) h
    have hreg : State.reg { u with fl := g } j = u.reg j := rfl
    rw [hreg]
    split <;> rfl
  | pop =>
    rw [exec_pop] at h ⊢
    refine onRegister_sameButFlags f (fun i u g => ?_) h
    rw [pop_with_fl u g]
    rfl
  | ret =>
    rw [exec_ret] at h ⊢
    refine onF0_sameButFlags f (fun u g => ?_) h
    rw [pop_with_fl u g]
    rfl
  | hlt => exact onF0_sameButFlags f (fun _ _ => rfl) h
  | jeq | jne => exact absurd (hi rfl) Bool.false_ne_true
  | jgt | jlt | jle | jge => exact extBranch_sameButFlags f (hi rfl) h
  | int | iret => exact unsupported_sameButFlags f h

/-! ### Reading `FL` -/

/-- With a value in `FL` a conditional jump raises no fault. -/
theorem State.branchIf_run_of_some {t : State} {f : Byte} (m : Mnemonic) (p : Byte) (i : Fin 8) (cond : Byte → Bool)
    (h : t.fl = some f) : (t.branchIf m p i cond).run = t.run := by
  rcases t.branchIf_cases m p i cond with ⟨hn, -⟩ | ⟨-, -, -, e⟩ | ⟨-, -, -, e⟩
  · simp [h] at hn
  · rw [e, State.setPc_run]
  · rw [e]

/-- Without a value in `FL` a conditional jump faults. -/
theorem State.branchIf_run_of_none {t : State} (m : Mnemonic) (p : Byte) (i : Fin 8) (cond : Byte → Bool)
    (h : t.fl = none) : (t.branchIf m p i cond).run = .faulted := by
  rcases t.branchIf_cases m p i cond with ⟨-, e⟩ | ⟨f, hf, -⟩ | ⟨f, hf, -⟩
  · rw [e, State.dispatchFault_run]
  · simp [h] at hf
  · simp [h] at hf

/-- So the two ends of a conditional jump, without and with a value in `FL`, differ in the run state. -/
theorem State.branchIf_not_sameButFlags {t u : State} {f : Byte} (m : Mnemonic) (p : Byte) (i : Fin 8)
    (cond : Byte → Bool) (ht : t.fl = none) (hu : u.fl = some f) (hr : u.run = .running) :
    ¬ SameButFlags (t.branchIf m p i cond) (u.branchIf m p i cond) := by
  intro hsame
  have hrun := hsame.run
  rw [State.branchIf_run_of_some m p i cond hu, State.branchIf_run_of_none m p i cond ht, hr] at hrun
  cases hrun

/-- `g` takes `s` to states that differ in more than `FL` when `FL` has no value and when it is 0. -/
def ReadsFlags (g : State → Result) (s : State) : Prop :=
  ∃ t u, g { s with fl := none } = .next t ∧ g { s with fl := some 0 } = .next u ∧ ¬ SameButFlags t u

section reads

variable {m : Mnemonic} {a : Byte} {s : State} (cond : Byte → Bool)

/-- A conditional jump on a register that exists reads `FL`: from a running core it faults without a value only. -/
theorem branch_readsFlags (ha : a.toNat < 8) (hr : s.run = .running) :
    ReadsFlags (fun s' => onRegister m a s' fun i t => t.branchIf m s'.pc i cond) s := by
  exact ⟨_, _, onRegister_of_lt m _ _ ha, onRegister_of_lt m _ _ ha,
    State.branchIf_not_sameButFlags m s.pc ⟨a.toNat, ha⟩ cond rfl rfl hr⟩

/-- With `EXT_BRANCHES` an extended jump reads `FL` as the others do. -/
theorem extBranch_readsFlags (hc : decide (s.config.extBranches = .unimplemented) = false) (ha : a.toNat < 8)
    (hr : s.run = .running) : ReadsFlags (fun s' => extBranch m a s' cond) s := by
  have hc : s.config.extBranches = .implemented := by
    cases he : s.config.extBranches with
    | unimplemented => simp [he] at hc
    | implemented => rfl
  obtain ⟨t, u, ht, hu, hne⟩ := branch_readsFlags (m := m) cond ha hr
  refine ⟨t, u, ?_, ?_, hne⟩
  · simpa only [extBranch, hc] using ht
  · simpa only [extBranch, hc] using hu

end reads

/-- An enabled conditional jump on a register that exists reads `FL`. -/
theorem exec_readsFlags {i : Instr} {s : State} (hi : testsFlags i.mnemonic = true)
    (hd : disabledIn s.config i.mnemonic = false) (hw : i.wellFormed = true) (hr : s.run = .running) :
    ReadsFlags (exec i) s := by
  cases i with
  | jeq a | jne a =>
    have ha : a.toNat < 8 := by simpa [Instr.wellFormed, Instr.registerOperands, registerByteOk] using hw
    exact branch_readsFlags _ ha hr
  | jgt a | jlt a | jle a | jge a =>
    have ha : a.toNat < 8 := by simpa [Instr.wellFormed, Instr.registerOperands, registerByteOk] using hw
    exact extBranch_readsFlags _ hd ha hr
  | ldi | prn | push | pop | cmp | jmp | call | ret | hlt | int | iret => exact absurd hi Bool.false_ne_true
  | add | sub | mul | mod | inc | dec | and | or | xor | not | shl | shr => exact absurd hi Bool.false_ne_true

/-- Settles O25: the write is confined by `exec_fl`, whole by `exec_cmp_overwrites_fl`; the reads are confined by
`exec_sameButFlags` and real by `exec_readsFlags`. -/
theorem flagsWrittenByCompareReadByJumps : Obligations.FlagsWrittenByCompareReadByJumps := by
  refine ⟨fun i s t h hfl => ?_, fun a b s t u f ha hb => exec_cmp_overwrites_fl ha hb,
    fun i s t f => exec_sameButFlags f, fun i s => exec_readsFlags⟩
  by_contra hi
  exact hfl (exec_fl (fun a b e => hi ⟨a, b, e⟩) h)

end Sys2Proof.Machine

/-! PROOFS of the family 40_load_print.md: LDI and PRN. Their operand check is that of every one-register form, and what
they leave unchanged is what the decoder's advance and one update leave. -/

namespace Sys2Proof.Machine

/-! ### The dispatch fault -/

/-- A dispatch fault of `i`, raised past the instruction, changes only what 60_exceptions.md R201 and R202 say. -/
theorem dispatchFault_faultedFrom (i : Instr) (s : State) (k : FaultKind) (info : Nat) :
    FaultedFrom s ((past i s).dispatchFault i.mnemonic s.pc k info) k i.mnemonic.opcode info
      (s.pc + BitVec.ofNat 8 i.length) where
  run := rfl
  record := rfl
  pc := State.advance_pc s _
  regs := fun _ _ => rfl
  flags := rfl
  mem := fun _ _ => rfl
  output := rfl
  loaded := rfl
  config := rfl

/-- An instruction of a one-register form checks its operand, whatever its behaviour would be. -/
theorem checksOperand_of_onRegister {mk : Byte → Instr} {body : State → Fin 8 → State → State}
    (h : ∀ a s, exec (mk a) s = onRegister (mk a).mnemonic a s (body s)) : checksOperand mk := by
  intro a s ha
  have hfault := (h a s).trans (onRegister_of_not_lt (mk a).mnemonic s (body s) (Nat.not_lt.mpr ha))
  exact ⟨_, hfault, dispatchFault_faultedFrom (mk a) s .invalidRegisterIndex a.toNat⟩

/-! ### Frames -/

/-- The decoder's advance writes `pc` alone. -/
theorem State.advance_onlyRegisters (s : State) (n : Nat) (ks : List (Fin 8)) : OnlyRegisters ks s (s.advance n) where
  regs := fun _ _ => rfl
  flags := rfl
  mem := fun _ _ => rfl
  output := rfl
  status := ⟨rfl, rfl, rfl, rfl⟩

/-- A write to one of the registers `ks` stays within them. -/
theorem OnlyRegisters.setReg {ks : List (Fin 8)} {s t : State} {i : Fin 8} (h : OnlyRegisters ks s t) (hi : i ∈ ks)
    (v : Byte) : OnlyRegisters ks s (t.setReg i v) where
  regs := fun k hk => (t.reg_setReg_ne i k v fun e => hk (e ▸ hi)).trans (h.regs k hk)
  flags := h.flags
  mem := h.mem
  output := h.output
  status := h.status

/-- A byte put out is one more line, its unsigned decimal value (60_exceptions.md R215). -/
@[simp] theorem State.out_outputLines (s : State) (v : Byte) :
    (s.out v).outputLines = s.outputLines ++ [toString v.toNat] := List.map_append

/-! ### The two instructions -/

/-- Settles O32: past the operand check LDI is the decoder's advance and one register write. -/
theorem loadImmediateRule : Obligations.LoadImmediateRule := by
  refine ⟨fun _ _ => rfl, fun imm => checksOperand_of_onRegister fun a s => exec_ldi a imm s, fun a imm ha s => ?_⟩
  have hexec := (exec_ldi a imm s).trans (onRegister_of_lt _ s _ ha)
  have hframe := s.advance_onlyRegisters Mnemonic.ldi.operandCount [⟨a.toNat, ha⟩]
  exact ⟨_, hexec, State.reg_setReg_same _ _ _, State.advance_pc s _, hframe.setReg (List.mem_singleton_self _) imm⟩

/-- Settles O33: past the operand check PRN is the decoder's advance and one byte put out. -/
theorem printNumericRule : Obligations.PrintNumericRule := by
  refine ⟨fun _ => rfl, checksOperand_of_onRegister exec_prn, fun a ha s => ?_⟩
  have hexec := (exec_prn a s).trans (onRegister_of_lt _ s _ ha)
  obtain ⟨hregs, hflags, hmem, -, hstatus⟩ := s.advance_onlyRegisters Mnemonic.prn.operandCount []
  exact ⟨_, hexec, State.out_output _ _, State.out_outputLines _ _, State.advance_pc s _, hregs, hflags, hmem, hstatus⟩

end Sys2Proof.Machine

/-! PROOFS of the family 41_stack.md: PUSH and POP. Past the operand check each is the decoder's advance, which leaves
registers and memory, and then the stack primitive of 41_stack.md R110 or R111. -/

namespace Sys2Proof.Machine

/-! ### Frames of the stack primitives -/

/-- Pushing writes no register but the stack pointer. -/
theorem State.push_regsKept (s : State) (v : Byte) : regsKept [spIndex] s (s.push v) := fun k hk =>
  (s.push_reg v k).trans (if_neg (List.ne_of_not_mem_cons hk))

/-- Pushing writes no byte of memory but the one below the stack pointer. -/
theorem State.push_memKept (s : State) (v : Byte) : memKept [s.reg spIndex - 1] s (s.push v) := fun _ ha =>
  s.push_readMem_ne v (List.ne_of_not_mem_cons ha)

/-- Pushing moves the stack pointer down by one. -/
theorem State.push_reg_spIndex (s : State) (v : Byte) : (s.push v).reg spIndex = s.reg spIndex - 1 :=
  (s.push_reg v spIndex).trans (if_pos rfl)

/-- Popping moves the stack pointer up by one below `SP_RESET` and leaves it otherwise. -/
theorem State.pop_reg_spIndex (s : State) :
    s.pop.2.reg spIndex = if (s.reg spIndex).toNat < spReset.toNat then s.reg spIndex + 1 else s.reg spIndex := by
  rw [s.pop_reg spIndex]
  simp only [true_and]

/-- Popping stays within the registers `ks` when the stack pointer is one of them. -/
theorem OnlyRegisters.pop {ks : List (Fin 8)} {s t : State} (h : OnlyRegisters ks s t) (hsp : spIndex ∈ ks) :
    OnlyRegisters ks s t.pop.2 where
  regs := fun k hk =>
    have hne : k ≠ spIndex := fun e => hk (e ▸ hsp)
    (t.pop_reg k).trans ((if_neg fun hc => hne hc.1).trans (h.regs k hk))
  flags := t.pop_fl.trans h.flags
  mem := fun a ha => (t.pop_readMem a).trans (h.mem a ha)
  output := t.pop_output.trans h.output
  status := by
    obtain ⟨hrun, hrecord, hloaded, hconfig⟩ := h.status
    exact ⟨t.pop_run.trans hrun, t.pop_faultRecord.trans hrecord, t.pop_loaded.trans hloaded, t.pop_config.trans hconfig⟩

/-- An operand byte other than 7 names a register other than the stack pointer. -/
theorem spIndex_ne_of_operand_ne {a : Byte} (ha : a.toNat < 8) (h : a ≠ 7) : spIndex ≠ ⟨a.toNat, ha⟩ := fun e =>
  h (BitVec.eq_of_toNat_eq (congrArg Fin.val e).symm)

/-! ### The two instructions -/

/-- Settles O34: the operand is read at the advanced state, whose registers are still the old ones, so PUSH R7 stores
the old stack pointer. -/
theorem pushRule : Obligations.PushRule := by
  refine ⟨fun _ => rfl, checksOperand_of_onRegister exec_push, fun a ha s => ?_⟩
  have hexec := (exec_push a s).trans (onRegister_of_lt _ s _ ha)
  exact ⟨_, hexec, State.push_reg_spIndex _ _, State.push_readMem_same _ _, State.advance_pc s _, State.push_regsKept _ _,
    rfl, State.push_memKept _ _, rfl, rfl, rfl, rfl, rfl⟩

/-- Settles O35: register A is written after the stack pointer, so it holds the popped byte even when it is R7, and the
stack pointer's own move shows only when it is not. -/
theorem popRule : Obligations.PopRule := by
  refine ⟨fun _ => rfl, checksOperand_of_onRegister exec_pop, fun a ha s => ?_⟩
  have hexec := (exec_pop a s).trans (onRegister_of_lt _ s _ ha)
  have hframe := (s.advance_onlyRegisters Mnemonic.pop.operandCount [⟨a.toNat, ha⟩, 7]).pop
    (List.mem_cons_of_mem _ (List.mem_singleton_self _))
  refine ⟨_, hexec, ?value, fun h => ?stackPointer, (State.pop_pc _).trans (State.advance_pc s _),
    hframe.setReg List.mem_cons_self _⟩
  case value => exact (State.reg_setReg_same _ _ _).trans (State.pop_value _)
  case stackPointer =>
    exact (State.reg_setReg_ne _ _ _ _ (spIndex_ne_of_operand_ne ha h)).trans (State.pop_reg_spIndex _)

end Sys2Proof.Machine

/-! PROOFS of the family 42_compare_branch.md: CMP, JMP, JEQ and JNE. Each is its form's operand checks and then one
update of the advanced state: the flags for CMP, `pc` for the jumps. -/

namespace Sys2Proof.Machine

/-! ### Operand checks -/

/-- Raising a dispatch fault is ending in the advanced state with the fault's record. -/
theorem raisesAt_of_exec {i : Instr} {s : State} {k : FaultKind} {info : Nat}
    (h : exec i s = .next ((past i s).dispatchFault i.mnemonic s.pc k info)) : raisesAt i s k info :=
  ⟨_, h, dispatchFault_faultedFrom i s k info⟩

/-- An instruction of the two-register form checks A and then B, whatever its behaviour would be. -/
theorem checksOperands_of_onRegisters {mk : Byte → Byte → Instr} {body : State → Fin 8 → Fin 8 → State → State}
    (h : ∀ a b s, exec (mk a b) s = onRegisters (mk a b).mnemonic a b s (body s)) : checksOperands mk := by
  refine fun a b s => ⟨fun ha => ?operandA, fun ha hb => ?operandB⟩
  case operandA => exact raisesAt_of_exec ((h a b s).trans (onRegisters_of_not_lt_left _ s _ (Nat.not_lt.mpr ha)))
  case operandB =>
    exact raisesAt_of_exec
      ((h a b s).trans (onRegisters_of_not_lt_right _ s _ (Nat.lt_succ_of_le ha) (Nat.not_lt.mpr hb)))

/-! ### The bits compare writes -/

/-- Bits E, G and L of compare's result say how the two bytes compare as unsigned numbers. -/
theorem compareFlags_bits (u w : Byte) :
    ((compareFlags u w).getLsbD 0 = true ↔ u.toNat = w.toNat) ∧
      ((compareFlags u w).getLsbD 1 = true ↔ u.toNat > w.toNat) ∧
      ((compareFlags u w).getLsbD 2 = true ↔ u.toNat < w.toNat) := by
  obtain ⟨hE, hG, hL, -⟩ :=
    packFlags_bits (decide (u.toNat = w.toNat)) (decide (u.toNat > w.toNat)) (decide (u.toNat < w.toNat))
  exact ⟨(Bool.eq_iff_iff.mp hE).trans decide_eq_true_iff, (Bool.eq_iff_iff.mp hG).trans decide_eq_true_iff,
    (Bool.eq_iff_iff.mp hL).trans decide_eq_true_iff⟩

/-- Bits 7:3 of compare's result are 0, since the result is 1, 2 or 4. -/
theorem compareFlags_high_bits (u w : Byte) {k : Nat} (hk : 3 ≤ k) : (compareFlags u w).getLsbD k = false := by
  have hlt : (compareFlags u w).toNat < 2 ^ 3 := by
    rcases compareFlags_cases u w with ⟨-, e⟩ | ⟨-, e⟩ | ⟨-, e⟩ <;> rw [e] <;> decide
  exact Nat.testBit_eq_false_of_lt (hlt.trans_le (Nat.pow_le_pow_right Nat.two_pos hk))

/-! ### Jumps -/

/-- Going to another address changes `pc` alone. -/
theorem OnlyRegisters.setPc {ks : List (Fin 8)} {s t : State} (h : OnlyRegisters ks s t) (v : Byte) :
    OnlyRegisters ks s (t.setPc v) where
  regs := h.regs
  flags := h.flags
  mem := h.mem
  output := h.output
  status := h.status

section branch

variable {ks : List (Fin 8)} {s t : State} {f : Byte} {m : Mnemonic} {p : Byte} {i : Fin 8} {cond : Byte → Bool}

/-- A conditional jump without a value in `FL` raises `FlagsUndefined`, whatever its condition (10_state.md R31). -/
theorem State.branchIf_of_none (h : t.fl = none) : t.branchIf m p i cond = t.dispatchFault m p .flagsUndefined 0 := by
  simp only [State.branchIf, h]

/-- A conditional jump with a value in `FL` only chooses whether to jump. -/
theorem State.branchIf_of_some (h : t.fl = some f) :
    t.branchIf m p i cond = if cond f then t.setPc (t.reg i) else t := by
  simp only [State.branchIf, h]

/-- Where a conditional jump with a value in `FL` goes. -/
theorem State.branchIf_pc (h : t.fl = some f) :
    (t.branchIf m p i cond).pc = if cond f then t.reg i else t.pc := by
  rw [State.branchIf_of_some h, apply_ite State.pc, State.setPc_pc]

/-- A conditional jump with a value in `FL` changes nothing but `pc`. -/
theorem OnlyRegisters.branchIf (h : OnlyRegisters ks s t) (hf : t.fl = some f) :
    OnlyRegisters ks s (t.branchIf m p i cond) := by
  rw [State.branchIf_of_some hf]
  split
  · exact h.setPc _
  · exact h

end branch

/-- An instruction that is a conditional jump wherever it is enabled has the rule of one: the operand is checked first,
then whether `FL` has a value, and only then the condition. -/
theorem branchRule_of_onRegister {mk : Byte → Instr} {op : Byte} {enabled : State → Prop} {taken : Byte → Bool}
    (henc : ∀ a, encode (mk a) = [op, a])
    (h : ∀ a s, enabled s → exec (mk a) s =
      onRegister (mk a).mnemonic a s fun i t => t.branchIf (mk a).mnemonic s.pc i taken) :
    branchRule mk op enabled taken := by
  refine ⟨henc, fun a s he ha => ?operand, fun a s he ha hfl => ?flags, fun a ha s f he hfl => ?jump⟩
  case operand => exact raisesAt_of_exec ((h a s he).trans (onRegister_of_not_lt _ s _ (Nat.not_lt.mpr ha)))
  case flags =>
    have hexec := (h a s he).trans (onRegister_of_lt _ s _ (Nat.lt_succ_of_le ha))
    exact raisesAt_of_exec (hexec.trans (congrArg Host.Outcome.next (State.branchIf_of_none hfl)))
  case jump =>
    have hexec := (h a s he).trans (onRegister_of_lt _ s _ ha)
    have hpc : (past (mk a) s).pc = s.pc + 2 := by
      obtain ⟨-, hlength⟩ := Laws.EncodedLength.of_table (mk a)
      rw [past, State.advance_pc, ← Instr.length, ← hlength, henc a]
      rfl
    have hflags : (past (mk a) s).fl = some f := hfl
    exact ⟨_, hexec, fun hc => (State.branchIf_pc hflags).trans (if_pos hc),
      fun hc => ((State.branchIf_pc hflags).trans (if_neg (ne_true_of_eq_false hc))).trans hpc,
      (s.advance_onlyRegisters _ []).branchIf hflags⟩

/-! ### The four instructions -/

/-- Settles O38: past the operand checks CMP is the decoder's advance and one write of the flags, computed from the
registers it leaves. -/
theorem compareRule : Obligations.CompareRule := by
  refine ⟨fun _ _ => rfl, checksOperands_of_onRegisters exec_cmp, fun a b ha hb s => ?_⟩
  have hexec := (exec_cmp a b s).trans (onRegisters_of_lt _ s _ ha hb)
  obtain ⟨hE, hG, hL⟩ := compareFlags_bits (s.reg ⟨a.toNat, ha⟩) (s.reg ⟨b.toNat, hb⟩)
  obtain ⟨hregs, -, hmem, houtput, hstatus⟩ := s.advance_onlyRegisters Mnemonic.cmp.operandCount []
  exact ⟨_, _, hexec, State.setFlags_fl _ _, hE, hG, hL, fun k hk => compareFlags_high_bits _ _ hk,
    State.advance_pc s _, hregs, hmem, houtput, hstatus⟩

/-- Settles O40: past the operand check JMP is the decoder's advance and a write of `pc`, over the advanced address. -/
theorem jumpRule : Obligations.JumpRule := by
  refine ⟨fun _ => rfl, checksOperand_of_onRegister exec_jmp, fun a ha s => ?_⟩
  have hexec := (exec_jmp a s).trans (onRegister_of_lt _ s _ ha)
  exact ⟨_, hexec, State.setPc_pc _ _, (s.advance_onlyRegisters Mnemonic.jmp.operandCount []).setPc _⟩

/-- Settles O41: JEQ and JNE are conditional jumps, always enabled, on bit E alone. -/
theorem equalityJumpRules : Obligations.EqualityJumpRules :=
  ⟨branchRule_of_onRegister (fun _ => rfl) fun a s _ => exec_jeq a s,
    branchRule_of_onRegister (fun _ => rfl) fun a s _ => exec_jne a s⟩

end Sys2Proof.Machine

/-! PROOFS of the family 43_call_return_halt.md: CALL, RET and HLT. Each is the decoder's advance, which leaves registers
and memory, and then the push of R130, the guarded pop of R131 or the halt of R132. -/

namespace Sys2Proof.Machine

/-! ### The run state -/

/-- Only HLT's own effect changes the run state (43_call_return_halt.md R132). -/
theorem Effect.run {i : Instr} {u t : State} (hi : i ≠ .hlt) (h : Effect i u t) : t.run = u.run := by
  cases i with
  | hlt => exact absurd rfl hi
  | ldi | prn | push | jmp | call | inc | dec | not => obtain ⟨_, rfl⟩ := h; rfl
  | cmp | add | sub | mul | and | or | xor | shl | shr => obtain ⟨_, _, rfl⟩ := h; rfl
  | mod => obtain ⟨_, _, -, rfl⟩ := h; rfl
  | pop => obtain ⟨_, rfl⟩ := h; exact State.pop_run _
  | ret => cases h; exact State.pop_run _
  | jeq | jne | jgt | jlt | jle | jge => obtain ⟨_, _, -, ⟨-, rfl⟩ | ⟨-, rfl⟩⟩ := h <;> rfl
  | int | iret => exact h.elim

/-- Executing anything but HLT keeps the run state or ends in `Faulted`. -/
theorem exec_run {i : Instr} {s t : State} (hi : i ≠ .hlt) (h : exec i s = .next t) :
    t.run = .faulted ∨ t.run = s.run := by
  rcases exec_cases h with ⟨_, _, -, rfl⟩ | he
  · exact .inl (State.dispatchFault_run _ _ _ _ _)
  · exact .inr ((he.run hi).trans (State.advance_run s _))

/-- From `Running` only HLT ends cleanly. -/
theorem eq_hlt_of_endedCleanly {i : Instr} {s t : State} (hs : s.run = .running) (h : exec i s = .next t)
    (ht : t.endedCleanly) : i = .hlt := by
  have hhalted : t.run = .halted := ht
  by_contra hi
  rcases exec_run hi h with hfaulted | hkept
  · exact RunState.noConfusion (hhalted.symm.trans hfaulted)
  · exact RunState.noConfusion (hhalted.symm.trans (hkept.trans hs))

/-- A halted core takes no step (10_state.md R32, 70_reset_and_hazards.md R234). -/
theorem step_of_halted {s : State} (h : s.run = .halted) : step s = .next s :=
  step_of_not_enabled (by simp [State.stepEnabled, h])

/-! ### The three instructions -/

/-- Settles O42: the target and the address pushed are both read at the advanced state, before the push, so CALL R7 goes
to the old stack pointer and the byte stored is the address after the call. -/
theorem callRule : Obligations.CallRule := by
  refine ⟨fun _ => rfl, checksOperand_of_onRegister exec_call, fun a ha s => ?_⟩
  have hexec := (exec_call a s).trans (onRegister_of_lt _ s _ ha)
  have hstackPointer := State.push_reg_spIndex (past (.call a) s) (past (.call a) s).pc
  have hregs := State.push_regsKept (past (.call a) s) (past (.call a) s).pc
  refine ⟨_, hexec, State.setPc_pc _ _, hstackPointer, fun hwf => ?returnAddress, hregs, rfl,
    State.push_memKept _ _, rfl, rfl, rfl, rfl, rfl⟩
  case returnAddress => exact (State.push_readMem_same _ _ hwf).trans (State.advance_pc s _)

/-- Settles O43: RET is the decoder's advance, the guarded pop, and a write of `pc` with the byte popped. -/
theorem returnRule : Obligations.ReturnRule := by
  refine ⟨rfl, fun s => ?_⟩
  have hframe := (s.advance_onlyRegisters Mnemonic.ret.operandCount [7]).pop (List.mem_singleton_self _)
  exact ⟨_, exec_ret s, State.pop_value _, State.pop_reg_spIndex _, hframe.setPc _⟩

/-- Settles O45: HLT is the decoder's advance and the halt, after which no step is enabled. -/
theorem haltRule : Obligations.HaltRule := by
  refine ⟨rfl, fun s => ?_, fun i s t => eq_hlt_of_endedCleanly⟩
  obtain ⟨hregs, hflags, hmem, houtput, -, hrecord, hloaded, hconfig⟩ :=
    s.advance_onlyRegisters Mnemonic.hlt.operandCount []
  exact ⟨_, exec_hlt s, State.halt_run _, State.advance_pc s _, step_of_halted (State.halt_run _), hregs, hflags, hmem,
    houtput, hrecord, hloaded, hconfig⟩

end Sys2Proof.Machine

/-! PROOFS of the family 44_alu.md: the twelve ALU instructions. Each is its form's operand checks and then one write to
register A of a value computed from the registers the decoder's advance leaves, so the twelve rules differ only in that
value; MOD alone can fault past the checks. -/

namespace Sys2Proof.Machine

/-! ### Results -/

/-- `u8` wraps to its exact value (44_alu.md R153). -/
theorem wrapsTo_u8 (v : Int) : wrapsTo (u8 v) v := u8_toNat v

/-- A byte that is the exact value needs no wrapping. -/
theorem wrapsTo_of_toNat_eq {w : Byte} {n : Nat} (h : w.toNat = n) : wrapsTo w n := by
  have hw := w.isLt
  simp only [wrapsTo]
  omega

/-! ### The two forms -/

/-- Where `pc` stands once the decoder has passed an instruction with these bytes (10_state.md R27). -/
theorem past_pc_of_encode {i : Instr} {op : Byte} {ops : List Byte} (h : encode i = op :: ops) (s : State) :
    (past i s).pc = s.pc + BitVec.ofNat 8 (1 + ops.length) := by
  obtain ⟨-, rfl⟩ := List.cons.inj h
  rw [Instr.operands_length]
  exact State.advance_pc s _

/-- An instruction of the one-register form that writes `g` of its register has the rule of one whose exact result `g`
wraps. -/
theorem aluRule1_of_onRegister {mk : Byte → Instr} {op : Byte} {f : Nat → Int} {g : Byte → Byte}
    (henc : ∀ a, encode (mk a) = [op, a])
    (h : ∀ a s, exec (mk a) s = onRegister (mk a).mnemonic a s fun i t => t.alu1 i g)
    (hg : ∀ u, wrapsTo (g u) (f u.toNat)) : aluRule1 mk op f := by
  refine ⟨henc, checksOperand_of_onRegister h, fun a ha s => ?_⟩
  have hexec := (h a s).trans (onRegister_of_lt _ s _ ha)
  have hresult : ((past (mk a) s).alu1 ⟨a.toNat, ha⟩ g).reg ⟨a.toNat, ha⟩ = g (s.reg ⟨a.toNat, ha⟩) :=
    State.reg_setReg_same _ _ _
  have hframe := s.advance_onlyRegisters (mk a).mnemonic.operandCount [⟨a.toNat, ha⟩]
  exact ⟨_, hexec, hresult ▸ hg _, past_pc_of_encode (henc a) s, hframe.setReg (List.mem_singleton_self _) _⟩

/-- An instruction of the two-register form that writes `g` of its registers, on the operands that are `ok`, has the
rule of one whose exact result `g` wraps. Both registers are read at the advanced state, before the write, so A and B
may be the same. -/
theorem aluRule2_of_onRegisters {mk : Byte → Byte → Instr} {op : Byte} {ok : Nat → Nat → Prop} {f : Nat → Nat → Int}
    {g : Byte → Byte → Byte} {body : State → Fin 8 → Fin 8 → State → State}
    (henc : ∀ a b, encode (mk a b) = [op, a, b])
    (h : ∀ a b s, exec (mk a b) s = onRegisters (mk a b).mnemonic a b s (body s))
    (hbody : ∀ s i j t, ok (t.reg i).toNat (t.reg j).toNat → body s i j t = t.alu2 i j g)
    (hg : ∀ u w, wrapsTo (g u w) (f u.toNat w.toNat)) : aluRule2 mk op ok f := by
  refine ⟨henc, checksOperands_of_onRegisters h, fun a b ha hb s hok => ?_⟩
  have hexec : exec (mk a b) s = .next ((past (mk a b) s).alu2 ⟨a.toNat, ha⟩ ⟨b.toNat, hb⟩ g) := by
    rw [h a b s, onRegisters_of_lt _ s _ ha hb]
    exact congrArg Host.Outcome.next (hbody s _ _ (past (mk a b) s) hok)
  have hresult : ((past (mk a b) s).alu2 ⟨a.toNat, ha⟩ ⟨b.toNat, hb⟩ g).reg ⟨a.toNat, ha⟩ =
      g (s.reg ⟨a.toNat, ha⟩) (s.reg ⟨b.toNat, hb⟩) := State.reg_setReg_same _ _ _
  have hframe := s.advance_onlyRegisters (mk a b).mnemonic.operandCount [⟨a.toNat, ha⟩]
  exact ⟨_, hexec, hresult ▸ hg _ _, past_pc_of_encode (henc a b) s, hframe.setReg (List.mem_singleton_self _) _⟩

/-- The same for an instruction that writes `g` whatever its operands hold: all but MOD. -/
theorem aluRule2_of_alu2 {mk : Byte → Byte → Instr} {op : Byte} {f : Nat → Nat → Int} {g : Byte → Byte → Byte}
    (henc : ∀ a b, encode (mk a b) = [op, a, b])
    (h : ∀ a b s, exec (mk a b) s = onRegisters (mk a b).mnemonic a b s fun i j t => t.alu2 i j g)
    (hg : ∀ u w, wrapsTo (g u w) (f u.toNat w.toNat)) : aluRule2 mk op (fun _ _ => True) f :=
  aluRule2_of_onRegisters henc h (fun _ _ _ _ _ => rfl) hg

/-! ### The twelve instructions -/

/-- Settles O46: the model computes the three results exactly and then takes `u8`. -/
theorem modularArithmeticRules : Obligations.ModularArithmeticRules :=
  ⟨aluRule2_of_alu2 (fun _ _ => rfl) exec_add fun _ _ => wrapsTo_u8 _,
    aluRule2_of_alu2 (fun _ _ => rfl) exec_sub fun _ _ => wrapsTo_u8 _,
    aluRule2_of_alu2 (fun _ _ => rfl) exec_mul fun _ _ => wrapsTo_u8 _⟩

/-- Settles O47: past the operand checks MOD tests its divisor; one that is not 0 leaves the write of the remainder, and
0 leaves the dispatch fault. -/
theorem remainderRule : Obligations.RemainderRule := by
  refine ⟨aluRule2_of_onRegisters (fun _ _ => rfl) exec_mod (fun s i j t hw => ?nonzero) fun _ _ => wrapsTo_u8 _,
    fun a b hb s ha hzero => ?zero⟩
  case nonzero => exact if_neg fun e => hw (congrArg BitVec.toNat e)
  case zero =>
    have hexec := (exec_mod a b s).trans (onRegisters_of_lt _ s _ ha hb)
    exact raisesAt_of_exec (hexec.trans (congrArg Host.Outcome.next (if_pos hzero)))

/-- Settles O48: INC, DEC and NOT are exact results taken to `u8`, NOT being `255 - x[a]`. -/
theorem oneOperandAluRules : Obligations.OneOperandAluRules :=
  ⟨aluRule1_of_onRegister (fun _ => rfl) exec_inc fun _ => wrapsTo_u8 _,
    aluRule1_of_onRegister (fun _ => rfl) exec_dec fun _ => wrapsTo_u8 _,
    aluRule1_of_onRegister (fun _ => rfl) exec_not fun _ => wrapsTo_u8 _⟩

/-- Settles O49: the bitwise operations on bytes are those on their values, which are below 256 already. -/
theorem bitwiseRules : Obligations.BitwiseRules :=
  ⟨aluRule2_of_alu2 (fun _ _ => rfl) exec_and fun u w => wrapsTo_of_toNat_eq (BitVec.toNat_and u w),
    aluRule2_of_alu2 (fun _ _ => rfl) exec_or fun u w => wrapsTo_of_toNat_eq (BitVec.toNat_or u w),
    aluRule2_of_alu2 (fun _ _ => rfl) exec_xor fun u w => wrapsTo_of_toNat_eq (BitVec.toNat_xor u w)⟩

/-- Settles O50: the shifts are the product with and the quotient by `2 ^ x[b]`, the whole byte, taken to `u8`. -/
theorem shiftRules : Obligations.ShiftRules :=
  ⟨aluRule2_of_alu2 (fun _ _ => rfl) exec_shl fun _ _ => wrapsTo_u8 _,
    aluRule2_of_alu2 (fun _ _ => rfl) exec_shr fun _ _ => wrapsTo_u8 _⟩

end Sys2Proof.Machine

/-! PROOFS of the family 70_reset_and_hazards.md: what the host can make the core do before a program is loaded. -/

namespace Sys2Proof.Machine

/-! ### States in which no step is enabled -/

/-- `Loaded` is a condition of every step (30_encoding.md R69, 70_reset_and_hazards.md R232). -/
theorem State.stepEnabled_of_not_loaded {s : State} (h : s.loaded = false) : s.stepEnabled = false := by
  simp [State.stepEnabled, h]

/-- `run()` returns at once, whatever the bound, when no step is enabled (70_reset_and_hazards.md R234). -/
theorem State.runFor_of_not_enabled {s : State} (h : s.stepEnabled = false) (fuel : Nat) : s.runFor fuel = some s := by
  cases fuel with
  | zero => simp [State.runFor, h]
  | succ fuel => simp [State.runFor, h]

/-- Settles O8: with nothing loaded no step is enabled, so neither `step()` nor `run()` does anything. -/
theorem nothingRunsBeforeALoad : Obligations.NothingRunsBeforeALoad := by
  refine fun s => ⟨rfl, fun hloaded => ?_⟩
  have hdisabled := State.stepEnabled_of_not_loaded hloaded
  exact ⟨step_of_not_enabled hdisabled, State.runFor_of_not_enabled hdisabled⟩

end Sys2Proof.Machine

/-! PROOFS over all instructions: the encoding. A row's opcode byte fixes the row, the row its format, and the format
how many of the bytes after the opcode are operands, so decoding and encoding undo each other (30_encoding.md R61, R62,
R68). -/

namespace Sys2Proof

/-! ### Building an instruction and taking it apart -/

/-- An instruction built from a row belongs to that row. -/
@[simp] theorem Mnemonic.mnemonic_build (m : Mnemonic) (a b : Byte) : (m.build a b).mnemonic = m := by
  cases m <;> rfl

/-- The operands of a built instruction are the bytes it was built from, as far as its format has operands. -/
theorem Mnemonic.operands_build (m : Mnemonic) (a b : Byte) :
    (m.build a b).operands = [a, b].take m.operandCount := by
  cases m <;> rfl

/-- The operand bytes of an instruction are what its row takes, whatever follows them. -/
theorem Instr.takeOperands_operands (i : Instr) (rest : List Byte) :
    i.mnemonic.takeOperands (i.operands ++ rest) = .ok (i, rest) := by
  cases i <;> rfl

/-- What a row takes is an instruction of that row, and the bytes it takes are that instruction's operands. -/
theorem Mnemonic.takeOperands_ok {m : Mnemonic} {bytes rest : List Byte} {i : Instr}
    (h : m.takeOperands bytes = .ok (i, rest)) : i.mnemonic = m ∧ bytes = i.operands ++ rest := by
  unfold Mnemonic.takeOperands at h
  split at h
  case h_5 => cases h
  all_goals
    cases h
    simp_all [Mnemonic.operands_build, Mnemonic.operandCount, Format.operandCount]

/-- Three bytes, the first a row's opcode, decode to that row's instruction with the operands it has. -/
theorem Mnemonic.decode_build (m : Mnemonic) (a b : Byte) :
    decode [m.opcode, a, b] = .ok (m.build a b, [a, b].drop m.operandCount) := by
  have htake := (m.build a b).takeOperands_operands ([a, b].drop m.operandCount)
  rw [m.mnemonic_build, m.operands_build, List.take_append_drop] at htake
  exact (decode_cons_of_lookup _ (lookupOpcode_opcode m)).trans htake

/-! ### The four statements -/

/-- Settles O1: the opcode byte is looked up to the instruction's row, which takes the instruction's operands. -/
theorem decodeInvertsEncode : Obligations.DecodeInvertsEncode := fun i rest =>
  (decode_cons_of_lookup _ (lookupOpcode_opcode i.mnemonic)).trans (i.takeOperands_operands rest)

/-- Settles O2: a byte that decodes is looked up to one row, and what the row takes are the operands. -/
theorem encodeInvertsDecode : Obligations.EncodeInvertsDecode := by
  intro bytes i rest h
  cases bytes with
  | nil => cases h
  | cons op tail =>
    cases hm : lookupOpcode op with
    | none => rw [decode_cons_of_not_lookup tail hm] at h; cases h
    | some m =>
      rw [decode_cons_of_lookup tail hm] at h
      obtain ⟨hrow, htail⟩ := Mnemonic.takeOperands_ok h
      rw [encode, hrow, opcode_of_lookupOpcode hm, htail, List.cons_append]

/-- Bits 7:6 of a byte are its value divided by 64: shifting right by 6 leaves the two bits the mask keeps. -/
theorem operandCount_eq_div (op : Byte) : operandCount op = op.toNat / 64 := by
  have hmask : op.toNat / 64 % 4 = op.toNat / 64 := Nat.mod_eq_of_lt (by have := op.isLt; omega)
  simp only [operandCount, BitVec.toNat_ushiftRight, BitVec.toNat_and, Nat.shiftRight_and_distrib]
  exact (Nat.and_two_pow_sub_one_eq_mod _ 2).trans ((congrArg (· % 4) (Nat.shiftRight_eq_div_pow _ 6)).trans hmask)

/-- Settles O3: the rows' top bits agree with their formats, and an encoding has one byte more than operands. -/
theorem operandCountGivesLength : Obligations.OperandCountGivesLength := by
  refine ⟨operandCount_eq_div, fun i => ?_⟩
  obtain ⟨hcount, hlength⟩ := Laws.EncodedLength.of_table i
  exact ⟨_, _, rfl, operandCount_opcode_lt i.mnemonic, hcount, hlength.symm⟩

/-- Settles O4: the nine words are the encodings of the nine instructions. -/
theorem writtenOutWordsDecode : Obligations.WrittenOutWordsDecode :=
  ⟨decodeInvertsEncode (.ldi 3 200) [], decodeInvertsEncode (.push 7) [], decodeInvertsEncode (.cmp 1 2) [],
    decodeInvertsEncode (.jne 2) [], decodeInvertsEncode .ret [], decodeInvertsEncode (.mod 0 2) [],
    decodeInvertsEncode (.not 5) [], decodeInvertsEncode (.jge 2) [], decodeInvertsEncode .iret []⟩

end Sys2Proof

/-! PROOFS over all instructions: the effects. What the instructions' own effects leave unchanged, field by field; a
dispatch fault leaves everything but `pc`, the run state and the record (`DispatchFaulted.keeps`). -/

namespace Sys2Proof.Machine

/-! ### Fields of an instruction's own effect -/

/-- A conditional jump that does not fault changes nothing but `pc`. -/
theorem BranchEffect.eq_setPc {i : Fin 8} {cond : Byte → Bool} {u t : State} (h : BranchEffect i cond u t) :
    ∃ v, t = u.setPc v := by
  obtain ⟨f, -, ⟨-, rfl⟩ | ⟨-, rfl⟩⟩ := h
  · exact ⟨_, rfl⟩
  · exact ⟨t.pc, rfl⟩

/-- An instruction that does not set `pc` leaves it where the decoder put it (10_state.md R27). -/
theorem Effect.pc {i : Instr} {u t : State} (hi : setsPc i = false) (h : Effect i u t) : t.pc = u.pc := by
  cases i with
  | ldi | prn | push | inc | dec | not => obtain ⟨_, rfl⟩ := h; rfl
  | cmp | add | sub | mul | and | or | xor | shl | shr => obtain ⟨_, _, rfl⟩ := h; rfl
  | mod => obtain ⟨_, _, -, rfl⟩ := h; rfl
  | pop => obtain ⟨_, rfl⟩ := h; exact State.pop_pc _
  | hlt => cases h; rfl
  | jmp | jeq | jne | call | ret | jgt | jlt | jle | jge => exact absurd hi Bool.true_eq_false.mp
  | int | iret => exact h.elim

/-- No instruction's own effect writes `Loaded`, the parameters or the fault record. -/
theorem Effect.status {i : Instr} {u t : State} (h : Effect i u t) :
    t.loaded = u.loaded ∧ t.config = u.config ∧ t.faultRecord = u.faultRecord := by
  cases i with
  | ldi | prn | push | jmp | call | inc | dec | not => obtain ⟨_, rfl⟩ := h; exact ⟨rfl, rfl, rfl⟩
  | cmp | add | sub | mul | and | or | xor | shl | shr => obtain ⟨_, _, rfl⟩ := h; exact ⟨rfl, rfl, rfl⟩
  | mod => obtain ⟨_, _, -, rfl⟩ := h; exact ⟨rfl, rfl, rfl⟩
  | pop => obtain ⟨_, rfl⟩ := h; exact ⟨State.pop_loaded _, State.pop_config _, State.pop_faultRecord _⟩
  | ret => cases h; exact ⟨State.pop_loaded _, State.pop_config _, State.pop_faultRecord _⟩
  | hlt => cases h; exact ⟨rfl, rfl, rfl⟩
  | jeq | jne | jgt | jlt | jle | jge => obtain ⟨_, h⟩ := h; obtain ⟨v, rfl⟩ := h.eq_setPc; exact ⟨rfl, rfl, rfl⟩
  | int | iret => exact h.elim

/-- Only PRN's own effect writes the output trace, one byte at its end (60_exceptions.md R215). -/
theorem Effect.output {i : Instr} {u t : State} (h : Effect i u t) :
    t.output = u.output ∨
      ∃ (a : Byte) (ha : a.toNat < 8), i = .prn a ∧ t.output = u.output ++ [u.reg ⟨a.toNat, ha⟩] := by
  cases i with
  | prn a => obtain ⟨ha, rfl⟩ := h; exact .inr ⟨a, ha, rfl, rfl⟩
  | ldi | push | jmp | call | inc | dec | not => obtain ⟨_, rfl⟩ := h; exact .inl rfl
  | cmp | add | sub | mul | and | or | xor | shl | shr => obtain ⟨_, _, rfl⟩ := h; exact .inl rfl
  | mod => obtain ⟨_, _, -, rfl⟩ := h; exact .inl rfl
  | pop => obtain ⟨_, rfl⟩ := h; exact .inl (State.pop_output _)
  | ret => cases h; exact .inl (State.pop_output _)
  | hlt => cases h; exact .inl rfl
  | jeq | jne | jgt | jlt | jle | jge => obtain ⟨_, h⟩ := h; obtain ⟨v, rfl⟩ := h.eq_setPc; exact .inl rfl
  | int | iret => exact h.elim

/-- Only PUSH's and CALL's own effects write memory, one byte, below the stack pointer (20_memory.md R41). -/
theorem Effect.mem {i : Instr} {u t : State} (h : Effect i u t) :
    t.mem = u.mem ∨
      ((∃ a, i = .push a ∨ i = .call a) ∧ ∃ v, t.mem = u.mem.write (u.reg spIndex - 1) v) := by
  cases i with
  | push a =>
    obtain ⟨_, rfl⟩ := h
    exact .inr ⟨⟨a, .inl rfl⟩, _, (State.push_mem _ _).trans (by rw [u8_sub_one])⟩
  | call a =>
    obtain ⟨_, rfl⟩ := h
    exact .inr ⟨⟨a, .inr rfl⟩, _, (State.push_mem _ _).trans (by rw [u8_sub_one])⟩
  | ldi | prn | jmp | inc | dec | not => obtain ⟨_, rfl⟩ := h; exact .inl rfl
  | cmp | add | sub | mul | and | or | xor | shl | shr => obtain ⟨_, _, rfl⟩ := h; exact .inl rfl
  | mod => obtain ⟨_, _, -, rfl⟩ := h; exact .inl rfl
  | pop => obtain ⟨_, rfl⟩ := h; exact .inl (State.pop_mem _)
  | ret => cases h; exact .inl (State.pop_mem _)
  | hlt => cases h; exact .inl rfl
  | jeq | jne | jgt | jlt | jle | jge => obtain ⟨_, h⟩ := h; obtain ⟨v, rfl⟩ := h.eq_setPc; exact .inl rfl
  | int | iret => exact h.elim

/-- A write to the register an operand byte names changes no other. -/
theorem State.eq_of_reg_setReg_ne {s : State} {a v : Byte} {ha : a.toNat < 8} {k : Fin 8}
    (h : (s.setReg ⟨a.toNat, ha⟩ v).reg k ≠ s.reg k) : a.toNat = k := by
  by_contra hne
  exact h (s.reg_setReg_ne _ k v fun e => hne (congrArg Fin.val e).symm)

/-- A register that an instruction's own effect changes is its operand A, or the stack pointer of a stack instruction
(10_state.md R21, R25). -/
theorem Effect.reg {i : Instr} {u t : State} {k : Fin 8} (h : Effect i u t) (hk : t.reg k ≠ u.reg k) :
    (∃ a, destinationOf i = some a ∧ a.toNat = k.val) ∨ (k = 7 ∧ usesStack i = true) := by
  cases i with
  | ldi | inc | dec | not => obtain ⟨_, rfl⟩ := h; exact .inl ⟨_, rfl, State.eq_of_reg_setReg_ne hk⟩
  | add | sub | mul | and | or | xor | shl | shr =>
    obtain ⟨_, _, rfl⟩ := h; exact .inl ⟨_, rfl, State.eq_of_reg_setReg_ne hk⟩
  | mod => obtain ⟨_, _, -, rfl⟩ := h; exact .inl ⟨_, rfl, State.eq_of_reg_setReg_ne hk⟩
  | prn | jmp => obtain ⟨_, rfl⟩ := h; exact absurd rfl hk
  | cmp => obtain ⟨_, _, rfl⟩ := h; exact absurd rfl hk
  | hlt => cases h; exact absurd rfl hk
  | jeq | jne | jgt | jlt | jle | jge =>
    obtain ⟨_, h⟩ := h; obtain ⟨v, rfl⟩ := h.eq_setPc; exact absurd rfl hk
  | push =>
    obtain ⟨_, rfl⟩ := h
    refine .inr ⟨?_, rfl⟩
    by_contra hne
    exact hk ((State.push_reg _ _ _).trans (if_neg hne))
  | call =>
    obtain ⟨_, rfl⟩ := h
    refine .inr ⟨?_, rfl⟩
    by_contra hne
    exact hk ((State.push_reg u u.pc k).trans (if_neg hne))
  | pop a =>
    obtain ⟨ha, rfl⟩ := h
    by_cases ha' : a.toNat = k
    · exact .inl ⟨a, rfl, ha'⟩
    · refine .inr ⟨?_, rfl⟩
      by_contra hne
      have hpop := (State.pop_reg u k).trans (if_neg fun hc => hne hc.1)
      exact hk ((State.reg_setReg_ne _ _ _ _ fun e => ha' (congrArg Fin.val e).symm).trans hpop)
  | ret =>
    cases h
    refine .inr ⟨?_, rfl⟩
    by_contra hne
    exact hk ((State.pop_reg u k).trans (if_neg fun hc => hne hc.1))
  | int | iret => exact h.elim

/-! ### Whole-machine rules -/

/-- Settles O20: both ends of an instruction that sets no `pc` leave it where the decoder put it. -/
theorem pcAdvancesPastTheInstruction : Obligations.PcAdvancesPastTheInstruction := by
  intro i s t hi h
  rcases exec_cases h with hf | he
  · obtain ⟨-, -, -, -, -, -, -, hpc, -⟩ := hf.keeps
    exact hpc
  · exact (he.pc hi).trans (State.advance_pc s _)

/-- Executing an instruction leaves the output trace, or it is a PRN and appends the byte of its register. -/
theorem exec_output {i : Instr} {s t : State} (h : exec i s = .next t) :
    t.output = s.output ∨
      ∃ (a : Byte) (ha : a.toNat < 8), i = .prn a ∧ t.output = s.output ++ [s.reg ⟨a.toNat, ha⟩] := by
  rcases exec_cases h with hf | he
  · obtain ⟨-, -, -, houtput, -⟩ := hf.keeps
    exact .inl houtput
  · exact he.output

/-- Settles O27: a dispatch fault leaves memory, and an effect that writes it writes one byte. -/
theorem memoryWrittenOnlyByPushAndCall : Obligations.MemoryWrittenOnlyByPushAndCall := by
  intro i s t x h hx
  have hkept : ¬ t.mem = s.mem := fun e => hx (State.readMem_congr s e x)
  rcases exec_cases h with hf | he
  · obtain ⟨-, -, hmem, -⟩ := hf.keeps
    exact absurd hmem hkept
  · rcases he.mem with hmem | ⟨hi, v, hmem⟩
    · exact absurd hmem hkept
    · refine ⟨hi, ?_⟩
      by_contra hne
      have hread : t.mem.read x = s.mem.read x := hmem ▸ Memory.read_write_ne s.mem v hne
      exact hx hread

/-- Settles O28: a dispatch fault leaves the registers, and so does the decoder's advance before the effect. -/
theorem registersWrittenOnlyByTheirInstructions : Obligations.RegistersWrittenOnlyByTheirInstructions := by
  intro i s t k h hk
  rcases exec_cases h with hf | he
  · obtain ⟨hregs, -⟩ := hf.keeps
    exact absurd (State.reg_congr s k hregs) hk
  · exact he.reg hk

/-- Executing an instruction writes neither `Loaded` nor the parameters. -/
theorem exec_loaded_config {i : Instr} {s t : State} (h : exec i s = .next t) :
    t.loaded = s.loaded ∧ t.config = s.config := by
  rcases exec_cases h with hf | he
  · obtain ⟨-, -, -, -, hloaded, hconfig, -⟩ := hf.keeps
    exact ⟨hloaded, hconfig⟩
  · obtain ⟨hloaded, hconfig, -⟩ := he.status
    exact ⟨hloaded, hconfig⟩

/-! ### The form of an instruction's execution -/

/-- How executing `i` at `s` begins: an opcode that is not enabled faults, and any other makes the checks of its operand
form, on its register operands, before its own behaviour `body` (30_encoding.md R62, R69, R72, R75). -/
inductive ExecForm (i : Instr) (s : State) : Prop
  | disabled (hd : disabledIn s.config i.mnemonic = true) (h : exec i s = unsupported i.mnemonic s)
  | noRegister (hd : disabledIn s.config i.mnemonic = false) (hops : i.registerOperands = []) {body : State → State}
      (h : exec i s = onF0 i.mnemonic s body)
  | oneRegister (hd : disabledIn s.config i.mnemonic = false) {a : Byte} (hops : i.registerOperands = [a])
      {body : Fin 8 → State → State} (h : exec i s = onRegister i.mnemonic a s body)
  | twoRegisters (hd : disabledIn s.config i.mnemonic = false) {a b : Byte} (hops : i.registerOperands = [a, b])
      {body : Fin 8 → Fin 8 → State → State} (h : exec i s = onRegisters i.mnemonic a b s body)

/-- With `EXT_BRANCHES` an extended jump is a conditional jump like the others (45_unimplemented.md R170 to R173). -/
theorem extBranch_of_implemented {m : Mnemonic} {a : Byte} {s : State} (cond : Byte → Bool)
    (h : s.config.extBranches = .implemented) :
    extBranch m a s cond = onRegister m a s fun i t => t.branchIf m s.pc i cond := by
  simp only [extBranch, h]

/-- The form of an extended jump, by the setting of `EXT_BRANCHES`. -/
theorem execForm_of_extBranch {i : Instr} {a : Byte} {s : State} {cond : Byte → Bool}
    (hd : disabledIn s.config i.mnemonic = decide (s.config.extBranches = .unimplemented))
    (hops : i.registerOperands = [a]) (h : exec i s = extBranch i.mnemonic a s cond) : ExecForm i s := by
  cases hc : s.config.extBranches with
  | unimplemented => exact .disabled (by simp [hd, hc]) (h.trans (extBranch_of_unimplemented cond hc))
  | implemented => exact .oneRegister (by simp [hd, hc]) hops (h.trans (extBranch_of_implemented cond hc))

/-- Every instruction's execution has one of the four forms. -/
theorem execForm (i : Instr) (s : State) : ExecForm i s := by
  cases i with
  | ldi a imm => exact .oneRegister rfl rfl (exec_ldi a imm s)
  | prn a => exact .oneRegister rfl rfl (exec_prn a s)
  | push a => exact .oneRegister rfl rfl (exec_push a s)
  | pop a => exact .oneRegister rfl rfl (exec_pop a s)
  | cmp a b => exact .twoRegisters rfl rfl (exec_cmp a b s)
  | jmp a => exact .oneRegister rfl rfl (exec_jmp a s)
  | jeq a => exact .oneRegister rfl rfl (exec_jeq a s)
  | jne a => exact .oneRegister rfl rfl (exec_jne a s)
  | call a => exact .oneRegister rfl rfl (exec_call a s)
  | ret => exact .noRegister rfl rfl (exec_ret s)
  | hlt => exact .noRegister rfl rfl (exec_hlt s)
  | add a b => exact .twoRegisters rfl rfl (exec_add a b s)
  | sub a b => exact .twoRegisters rfl rfl (exec_sub a b s)
  | mul a b => exact .twoRegisters rfl rfl (exec_mul a b s)
  | mod a b => exact .twoRegisters rfl rfl (exec_mod a b s)
  | inc a => exact .oneRegister rfl rfl (exec_inc a s)
  | dec a => exact .oneRegister rfl rfl (exec_dec a s)
  | and a b => exact .twoRegisters rfl rfl (exec_and a b s)
  | or a b => exact .twoRegisters rfl rfl (exec_or a b s)
  | xor a b => exact .twoRegisters rfl rfl (exec_xor a b s)
  | not a => exact .oneRegister rfl rfl (exec_not a s)
  | shl a b => exact .twoRegisters rfl rfl (exec_shl a b s)
  | shr a b => exact .twoRegisters rfl rfl (exec_shr a b s)
  | jgt a => exact execForm_of_extBranch rfl rfl (exec_jgt a s)
  | jlt a => exact execForm_of_extBranch rfl rfl (exec_jlt a s)
  | jle a => exact execForm_of_extBranch rfl rfl (exec_jle a s)
  | jge a => exact execForm_of_extBranch rfl rfl (exec_jge a s)
  | int a => exact .disabled rfl (exec_int a s)
  | iret => exact .disabled rfl (exec_iret s)

/-! ### Every instruction answers a next state -/

/-- The one-register form answers a next state, whatever its behaviour. -/
theorem onRegister_next (m : Mnemonic) (a : Byte) (s : State) (body : Fin 8 → State → State) :
    ∃ t, onRegister m a s body = .next t := by
  by_cases ha : a.toNat < 8
  · exact ⟨_, onRegister_of_lt m s body ha⟩
  · exact ⟨_, onRegister_of_not_lt m s body ha⟩

/-- The two-register form answers a next state, whatever its behaviour. -/
theorem onRegisters_next (m : Mnemonic) (a b : Byte) (s : State) (body : Fin 8 → Fin 8 → State → State) :
    ∃ t, onRegisters m a b s body = .next t := by
  by_cases ha : a.toNat < 8
  · by_cases hb : b.toNat < 8
    · exact ⟨_, onRegisters_of_lt m s body ha hb⟩
    · exact ⟨_, onRegisters_of_not_lt_right m s body ha hb⟩
  · exact ⟨_, onRegisters_of_not_lt_left m s body ha⟩

/-- Every instruction answers a next state: nothing is refused (log 3). -/
theorem exec_next (i : Instr) (s : State) : ∃ t, exec i s = .next t := by
  rcases execForm i s with ⟨-, h⟩ | ⟨-, -, h⟩ | ⟨-, -, h⟩ | ⟨-, -, h⟩ <;> rw [h]
  · exact ⟨_, rfl⟩
  · exact ⟨_, rfl⟩
  · exact onRegister_next _ _ s _
  · exact onRegisters_next _ _ _ s _

/-- A step that runs no instruction answers the same state or the one its fetch faulted into. -/
theorem step_next (s : State) : ∃ t, step s = .next t := by
  rcases step_cases s with ⟨-, h⟩ | ⟨-, t, -, h⟩ | ⟨-, i, -, h⟩
  · exact ⟨s, h⟩
  · exact ⟨t, h⟩
  · rw [h]; exact exec_next i s

/-- Settles O15: every form of an instruction answers a next state, and so does a fetch that faults. -/
theorem everyStepAnswersANextState : Obligations.EveryStepAnswersANextState := ⟨step_next, exec_next⟩

end Sys2Proof.Machine

/-! PROOFS about the whole step: what a fetch answers for each kind of opcode byte (30_encoding.md R69 to R71,
20_memory.md R46), and what a step then does. -/

namespace Sys2Proof.Machine

/-! ### The bytes fetched -/

/-- The three bytes from `pc` on. -/
theorem State.readMem_range_three (s : State) :
    (List.range 3).map (fun k => s.readMem (s.pc + BitVec.ofNat 8 k)) =
      [s.readMem s.pc, s.readMem (s.pc + 1), s.readMem (s.pc + 2)] := by
  simp [List.range_succ]

/-- An instruction of one to three bytes is read from `pc` on, addresses modulo 256 (30_encoding.md R63). -/
theorem State.instrBytes_eq_take (s : State) {n : Nat} (hn : n ≤ 2) :
    s.instrBytes n = [s.readMem s.pc, s.readMem (s.pc + 1), s.readMem (s.pc + 2)].take (n + 1) := by
  have hrange : List.range (n + 1) = (List.range 3).take (n + 1) := by
    rw [List.take_range, min_eq_left (Nat.succ_le_succ hn)]
  simp only [State.instrBytes, u8_add_natCast]
  rw [hrange, List.map_take, s.readMem_range_three]

/-- An opcode byte has at most three operands by its top bits (30_encoding.md R61). -/
theorem operandCount_le_three (op : Byte) : operandCount op ≤ 3 := by
  have hlt := op.isLt
  rw [operandCount_eq_div]
  omega

/-- An instruction that fits is not fetched past the end. -/
theorem State.overflows_of_fits {s : State} {n : Nat} (h : s.fits n) : s.overflows n = false := by
  rcases h with hwrap | hle
  · simp [State.overflows, hwrap]
  · simp [State.overflows, hle]

/-! ### What a fetch answers -/

section fetch

variable {s : State} {i : Instr} {rest : List Byte}

/-- Bits 7:6 = 11 come first (30_encoding.md R70). -/
theorem State.fetch_of_operandCount_three (hn : operandCount (s.readMem s.pc) = 3) :
    s.fetch = .error (s.raise .unsupportedOperation s.pc (s.readMem s.pc) (s.readMem s.pc).toNat) := by
  simp only [State.fetch, hn, if_true]

/-- Then the address of the successor (20_memory.md R46). -/
theorem State.fetch_of_overflows (hn : operandCount (s.readMem s.pc) ≠ 3)
    (ho : s.overflows (operandCount (s.readMem s.pc)) = true) :
    s.fetch = .error (s.raise .addressOutOfRange s.pc (s.readMem s.pc)
      (s.pc.toNat + 1 + operandCount (s.readMem s.pc))) := by
  simp only [State.fetch, hn, ho, if_true, if_false]

/-- Then the table: an opcode byte that no row has faults past its operands (30_encoding.md R71). -/
theorem State.fetch_of_unlisted (hn : operandCount (s.readMem s.pc) ≠ 3)
    (ho : s.overflows (operandCount (s.readMem s.pc)) = false) (hu : lookupOpcode (s.readMem s.pc) = none) :
    s.fetch = .error ((s.advance (operandCount (s.readMem s.pc))).raise .unsupportedOperation s.pc (s.readMem s.pc)
      (s.readMem s.pc).toNat) := by
  obtain ⟨ops, hbytes⟩ := s.instrBytes_head (operandCount (s.readMem s.pc))
  have hdecode := decode_cons_of_not_lookup ops hu
  rw [← hbytes] at hdecode
  simp only [State.fetch, hn, ho, hdecode, Bool.false_eq_true, if_false]

/-- A byte that no row has is looked up to none. -/
theorem lookupOpcode_eq_none {op : Byte} (h : ∀ m : Mnemonic, m.opcode ≠ op) : lookupOpcode op = none := by
  cases hm : lookupOpcode op with
  | none => rfl
  | some m => exact absurd (opcode_of_lookupOpcode hm) (h m)

/-- An instruction whose bytes stand at `pc`, and which fits, is what the fetch gives. The fetch reads only as many of
the bytes as the instruction has, and those are its encoding. -/
theorem State.fetch_of_decode
    (hd : decode [s.readMem s.pc, s.readMem (s.pc + 1), s.readMem (s.pc + 2)] = .ok (i, rest))
    (hfits : s.fits i.mnemonic.operandCount) : s.fetch = .ok i := by
  have hbytes := encodeInvertsDecode _ _ _ hd
  have hop : s.readMem s.pc = i.mnemonic.opcode := (List.cons.inj hbytes).1
  have hcount : operandCount (s.readMem s.pc) = i.mnemonic.operandCount := by rw [hop, operandCount_opcode]
  have hlt := operandCount_opcode_lt i.mnemonic
  rw [operandCount_opcode] at hlt
  have hlength : (encode i).length = i.mnemonic.operandCount + 1 := by simp [encode]
  have hread : s.instrBytes i.mnemonic.operandCount = encode i := by
    rw [s.instrBytes_eq_take (Nat.le_of_lt_succ hlt), hbytes, ← hlength, List.take_left]
  have hdecode := decodeInvertsEncode i []
  rw [List.append_nil, ← hread] at hdecode
  simp only [State.fetch, hcount, hlt.ne, State.overflows_of_fits hfits, hdecode, Bool.false_eq_true, if_false]

/-- A fetch gives an instruction only at its own opcode byte. -/
theorem State.fetch_ok_opcode (h : s.fetch = .ok i) : s.readMem s.pc = i.mnemonic.opcode := by
  obtain ⟨-, -, rest, hd⟩ := State.fetch_ok h
  obtain ⟨ops, hbytes⟩ := s.instrBytes_head (operandCount (s.readMem s.pc))
  exact (List.cons.inj (hbytes.symm.trans (encodeInvertsDecode _ _ _ hd))).1

end fetch

/-! ### The bytes of the opcode table -/

/-- The rows' opcode bytes as numbers. -/
def listedOpcodes : Finset Nat := (Mnemonic.all.map fun m => m.opcode.toNat).toFinset

/-- There are 29 of them. -/
theorem card_listedOpcodes : listedOpcodes.card = 29 := List.toFinset_card_of_nodup (by decide)

/-- They are the rows' opcode bytes. -/
theorem mem_listedOpcodes {k : Nat} : k ∈ listedOpcodes ↔ ∃ m : Mnemonic, m.opcode.toNat = k := by
  simp [listedOpcodes, Mnemonic.mem_all]

/-- Below 192 bits 7:6 of a byte are not 11, so every row's opcode byte is there. -/
theorem listedOpcodes_subset : listedOpcodes ⊆ Finset.range 192 := by
  intro k hk
  obtain ⟨m, rfl⟩ := mem_listedOpcodes.mp hk
  have hlt := operandCount_opcode_lt m
  rw [operandCount_eq_div] at hlt
  rw [Finset.mem_range]
  omega

/-- The byte of value `k` passes the test of bits 7:6 and is no row's opcode (30_encoding.md R71). -/
def isUnlisted (k : Nat) : Bool :=
  operandCount (BitVec.ofNat 8 k) ≠ 3 && (lookupOpcode (BitVec.ofNat 8 k)).isNone

/-- The unlisted bytes are those below 192 that are not listed. -/
theorem isUnlisted_iff {k : Nat} (hk : k < 256) : isUnlisted k = true ↔ k ∈ Finset.range 192 \ listedOpcodes := by
  have hvalue : (BitVec.ofNat 8 k).toNat = k := by rw [BitVec.toNat_ofNat, Nat.mod_eq_of_lt hk]
  have hcount : operandCount (BitVec.ofNat 8 k) ≠ 3 ↔ k < 192 := by
    rw [operandCount_eq_div, hvalue]
    omega
  have hlookup : lookupOpcode (BitVec.ofNat 8 k) = none ↔ k ∉ listedOpcodes := by
    simp [lookupOpcode, mem_listedOpcodes, Mnemonic.mem_all, ← BitVec.toNat_inj, hvalue]
  simp only [isUnlisted, Bool.and_eq_true, decide_eq_true_eq, Option.isNone_iff_eq_none, hcount, hlookup,
    Finset.mem_sdiff, Finset.mem_range]

/-- Of the 192 bytes, 29 are listed. -/
theorem length_filter_isUnlisted : ((List.range 256).filter isUnlisted).length = 163 := by
  have hset : ((List.range 256).filter isUnlisted).toFinset = Finset.range 192 \ listedOpcodes := by
    ext k
    rw [List.mem_toFinset, List.mem_filter, List.mem_range]
    refine ⟨fun ⟨hk, h⟩ => (isUnlisted_iff hk).mp h, fun h => ?_⟩
    have hk : k < 256 := (Finset.mem_range.mp (Finset.mem_sdiff.mp h).1).trans (by decide)
    exact ⟨hk, (isUnlisted_iff hk).mpr h⟩
  rw [← List.toFinset_card_of_nodup (List.nodup_range.filter _), hset,
    Finset.card_sdiff_of_subset listedOpcodes_subset, card_listedOpcodes, Finset.card_range]

/-! ### The state a faulting fetch leaves -/

/-- A fault raised at `s` changes only the record and the run state (60_exceptions.md R201). -/
theorem State.raise_faultedFrom (s : State) (k : FaultKind) (op : Byte) (info : Nat) :
    FaultedFrom s (s.raise k s.pc op info) k op info s.pc where
  run := rfl
  record := rfl
  pc := rfl
  regs := fun _ _ => rfl
  flags := rfl
  mem := fun _ _ => rfl
  output := rfl
  loaded := rfl
  config := rfl

/-- The decoder's advance in two parts, the opcode byte and the operands. -/
theorem add_ofNat_one_add (p : Byte) (n : Nat) : p + BitVec.ofNat 8 (1 + n) = p + 1 + BitVec.ofNat 8 n := by
  rw [BitVec.ofNat_add, ← BitVec.add_assoc]
  rfl

/-- A fault raised past `n` operands changes `pc` besides (60_exceptions.md R202). -/
theorem State.advance_raise_faultedFrom (s : State) (n : Nat) (k : FaultKind) (op : Byte) (info : Nat) :
    FaultedFrom s ((s.advance n).raise k s.pc op info) k op info (s.pc + 1 + BitVec.ofNat 8 n) where
  run := rfl
  record := rfl
  pc := (s.advance_pc n).trans (add_ofNat_one_add s.pc n)
  regs := fun _ _ => rfl
  flags := rfl
  mem := fun _ _ => rfl
  output := rfl
  loaded := rfl
  config := rfl

/-- A fetch that fails changes what a fault changes: a decode fault leaves `pc`, and the fault of an unlisted opcode
leaves it past the operands. -/
theorem State.fetch_error_faultedFrom {s t : State} (h : s.fetch = .error t) :
    ∃ k info, FaultedFrom s t k (s.readMem s.pc) info t.pc ∧
      (operandCount (s.readMem s.pc) = 3 ∨ k = .addressOutOfRange → t.pc = s.pc) ∧
      (operandCount (s.readMem s.pc) ≠ 3 → k ≠ .addressOutOfRange →
        t.pc = s.pc + 1 + BitVec.ofNat 8 (operandCount (s.readMem s.pc))) := by
  rcases State.fetch_error h with ⟨hn, rfl⟩ | ⟨hn, -, rfl⟩ | ⟨hn, -, rfl⟩
  · exact ⟨_, _, s.raise_faultedFrom _ _ _, fun _ => rfl, fun hne => absurd hn hne⟩
  · exact ⟨_, _, s.raise_faultedFrom _ _ _, fun _ => rfl, fun _ hk => absurd rfl hk⟩
  · have hfaulted := s.advance_raise_faultedFrom (operandCount (s.readMem s.pc)) .unsupportedOperation (s.readMem s.pc)
      (s.readMem s.pc).toNat
    refine ⟨_, _, hfaulted.pc ▸ hfaulted, fun hc => ?_, fun _ _ => hfaulted.pc⟩
    rcases hc with hthree | hkind
    · exact absurd hthree hn
    · cases hkind

/-! ### What a step does -/

/-- Everything a step that answers `t` has done: nothing, a fetch that faulted, or an instruction. -/
theorem step_next_cases {s t : State} (h : step s = .next t) :
    (s.stepEnabled = false ∧ t = s) ∨ (s.stepEnabled = true ∧ s.fetch = .error t) ∨
      (s.stepEnabled = true ∧ ∃ i, s.fetch = .ok i ∧ exec i s = .next t) := by
  rcases step_cases s with ⟨he, hs⟩ | ⟨he, u, hf, hs⟩ | ⟨he, i, hf, hs⟩
  · cases hs.symm.trans h; exact .inl ⟨he, rfl⟩
  · cases hs.symm.trans h; exact .inr (.inl ⟨he, hf⟩)
  · exact .inr (.inr ⟨he, i, hf, hs.symm.trans h⟩)

/-- A step is enabled at a running, loaded core. -/
theorem State.stepEnabled_of_running_loaded {s : State} (hrun : s.run = .running) (hloaded : s.loaded = true) :
    s.stepEnabled = true := s.stepEnabled_iff.mpr ⟨hrun, hloaded⟩

/-- A core that is not running takes no step (10_state.md R32). -/
theorem step_of_not_running {s : State} (h : s.run ≠ .running) : step s = .next s :=
  step_of_not_enabled (by simp [State.stepEnabled, h])

/-- Settles O13: the fetch gives the instruction whose bytes stand at `pc`. -/
theorem stepRunsTheDecodedInstruction : Obligations.StepRunsTheDecodedInstruction := fun _ _ _ hrun hloaded hd hfits =>
  step_of_fetch_ok (State.stepEnabled_of_running_loaded hrun hloaded) (State.fetch_of_decode hd hfits)

/-- The three bytes placed at `p`, `p + 1` and `p + 2` are read there: the addresses differ, also where they wrap. -/
theorem State.placeInstr_bytes {s : State} (op a b : Byte) (hwf : s.mem.wf = true) :
    [(s.placeInstr op a b).readMem s.pc, (s.placeInstr op a b).readMem (s.pc + 1),
      (s.placeInstr op a b).readMem (s.pc + 2)] = [op, a, b] := by
  have hpa : s.pc ≠ s.pc + 1 := by bv_omega
  have hpb : s.pc ≠ s.pc + 2 := by bv_omega
  have hab : s.pc + 1 ≠ s.pc + 2 := by bv_omega
  have htwo : u8 ((s.pc.toNat : Int) + 2) = s.pc + 2 := u8_add_natCast s.pc 2
  have hmem : (s.placeInstr op a b).mem = ((s.mem.write s.pc op).write (s.pc + 1) a).write (s.pc + 2) b := by
    simp only [State.placeInstr, u8_add_one, htwo]
  have hwf1 := Memory.write_wf s.pc op hwf
  have hwf2 := Memory.write_wf (s.pc + 1) a hwf1
  simp only [State.readMem, hmem]
  rw [Memory.read_write_same _ b hwf2, Memory.read_write_ne _ b hab, Memory.read_write_same _ a hwf1,
    Memory.read_write_ne _ b hpb, Memory.read_write_ne _ a hpa, Memory.read_write_same _ op hwf]

/-- Settles O14: the placed bytes are what stands at `pc`, and placing leaves `pc` and the parameters. -/
theorem placedWordRunsNext : Obligations.PlacedWordRunsNext := by
  intro s nbits w i hwf hw hfits
  rcases hword : tableWordBytes nbits w with ⟨op, a, b⟩
  have hplace : s.withFetchWord nbits w = s.placeInstr op a b := by simp only [State.withFetchWord, hword]
  simp only [decodeTableWord, hword] at hw
  split at hw
  case h_2 => cases hw
  case h_1 j rest hd =>
    cases hw
    have hbytes := State.placeInstr_bytes op a b hwf
    rw [hplace]
    exact stepRunsTheDecodedInstruction _ _ rest rfl rfl ((congrArg decode hbytes).trans hd) hfits

/-- Settles O16: only HLT ends in `Halted`, and it is fetched only at its own opcode byte. -/
theorem haltedAndFaultedAbsorb : Obligations.HaltedAndFaultedAbsorb := by
  refine ⟨fun s => step_of_not_running, fun s t hrun h hhalted => ?_⟩
  rcases step_next_cases h with ⟨-, rfl⟩ | ⟨-, hf⟩ | ⟨-, i, hf, hexec⟩
  · exact RunState.noConfusion (hrun.symm.trans hhalted)
  · obtain ⟨k, info, hfaulted, -⟩ := State.fetch_error_faultedFrom hf
    exact RunState.noConfusion (hfaulted.run.symm.trans hhalted)
  · cases eq_hlt_of_endedCleanly hrun hexec hhalted
    exact ⟨State.fetch_ok_opcode hf, hexec⟩

/-- Settles O17: an opcode byte's top bits are its value divided by 64, and the fetch tests them first. -/
theorem operandCountThreeFaultsAtDecode : Obligations.OperandCountThreeFaultsAtDecode := by
  have hthree : ∀ op : Byte, operandCount op = 3 ↔ 0xC0 ≤ op.toNat := fun op => by
    have hlt := op.isLt
    rw [operandCount_eq_div]
    omega
  refine ⟨hthree, fun s hrun hloaded hop => ⟨_, ?_, s.raise_faultedFrom _ _ _⟩⟩
  exact step_of_fetch_error (State.stepEnabled_of_running_loaded hrun hloaded)
    (State.fetch_of_operandCount_three ((hthree _).mpr hop))

/-- Settles O18: the fetch of such a byte faults past its operands; the table is finite, so its gaps are counted. -/
theorem unlistedOpcodesFaultAtDispatch : Obligations.UnlistedOpcodesFaultAtDispatch := by
  refine ⟨fun s hrun hloaded hop hn hfits => ⟨_, ?_, s.advance_raise_faultedFrom _ _ _ _⟩, ?count, ?named⟩
  · exact step_of_fetch_error (State.stepEnabled_of_running_loaded hrun hloaded)
      (State.fetch_of_unlisted hn (State.overflows_of_fits hfits) (lookupOpcode_eq_none hop))
  case count => exact length_filter_isUnlisted
  case named => intro op hop m; cases m <;> revert op <;> decide

/-- An address taken modulo 256. -/
theorem ofNat_add_mod (p : Byte) (k : Nat) : BitVec.ofNat 8 ((p.toNat + k) % 256) = p + BitVec.ofNat 8 k := by
  apply BitVec.eq_of_toNat_eq
  simp

/-- Settles O19: under `Fault` the fetch tests the successor's address; under `Wrap` everything fits, and the step is
that of the instruction read modulo 256. -/
theorem instructionPastTheEndFollowsTheParameter : Obligations.InstructionPastTheEndFollowsTheParameter := by
  refine ⟨fun s hrun hloaded hfault hn hpast => ⟨_, ?_, s.raise_faultedFrom _ _ _⟩,
    fun s i rest hrun hloaded hwrap hd => ?_⟩
  · have ho : s.overflows (operandCount (s.readMem s.pc)) = true := by simp [State.overflows, hfault, hpast]
    exact step_of_fetch_error (State.stepEnabled_of_running_loaded hrun hloaded) (State.fetch_of_overflows hn ho)
  · obtain ⟨t, hexec⟩ := exec_next i s
    have hbytes : (List.range 3).map (fun k => s.readMem (BitVec.ofNat 8 ((s.pc.toNat + k) % 256))) =
        [s.readMem s.pc, s.readMem (s.pc + 1), s.readMem (s.pc + 2)] := by
      simp only [ofNat_add_mod]
      exact s.readMem_range_three
    have hstep := stepRunsTheDecodedInstruction s i rest hrun hloaded (hbytes ▸ hd) (.inl hwrap)
    refine ⟨t, hstep.trans hexec, hexec, fun hi => ?_⟩
    rw [pcAdvancesPastTheInstruction i s t hi hexec, BitVec.toNat_add, BitVec.toNat_ofNat, Nat.add_mod_mod]

/-- Settles O23: neither a faulting fetch nor an instruction writes them. -/
theorem stepsKeepLoadedAndParameters : Obligations.StepsKeepLoadedAndParameters := by
  intro s t h
  rcases step_next_cases h with ⟨-, rfl⟩ | ⟨-, hf⟩ | ⟨-, i, -, hexec⟩
  · exact ⟨rfl, rfl⟩
  · obtain ⟨k, info, hfaulted, -⟩ := State.fetch_error_faultedFrom hf
    exact ⟨hfaulted.loaded, hfaulted.config⟩
  · exact exec_loaded_config hexec

/-- Settles O26: a faulting fetch leaves the output trace, and of the instructions only PRN writes it. -/
theorem outputWrittenOnlyByPrint : Obligations.OutputWrittenOnlyByPrint := by
  refine ⟨fun i s t h hne => (exec_output h).resolve_left hne, fun s t h => ?_⟩
  have happend : t.output = s.output ∨ ∃ v, t.output = s.output ++ [v] := by
    rcases step_next_cases h with ⟨-, rfl⟩ | ⟨-, hf⟩ | ⟨-, i, -, hexec⟩
    · exact .inl rfl
    · obtain ⟨k, info, hfaulted, -⟩ := State.fetch_error_faultedFrom hf
      exact .inl hfaulted.output
    · exact (exec_output hexec).imp_right fun ⟨_, _, _, e⟩ => ⟨_, e⟩
  rcases happend with e | ⟨v, e⟩
  · rw [e]; exact ⟨List.prefix_rfl, Nat.le_succ _⟩
  · rw [e]; exact ⟨List.prefix_append _ _, List.length_append.le⟩

end Sys2Proof.Machine

/-! PROOFS about the invariant of the machine: reset meets it, every step keeps it, and a recorded fault is the last. -/

namespace Sys2Proof.Machine

/-! ### Building the invariant of a next state -/

/-- What compare writes, when an effect changes `FL` at all (42_compare_branch.md R120). -/
theorem Effect.fl_cases {i : Instr} {u t : State} (h : Effect i u t) :
    t.fl = u.fl ∨ t.fl = some 1 ∨ t.fl = some 2 ∨ t.fl = some 4 := by
  by_cases hi : ∃ a b, i = .cmp a b
  · obtain ⟨a, b, rfl⟩ := hi
    obtain ⟨ha, hb, rfl⟩ := h
    simp only [State.setFlags_fl]
    rcases compareFlags_cases (u.reg ⟨a.toNat, ha⟩) (u.reg ⟨b.toNat, hb⟩) with ⟨-, e⟩ | ⟨-, e⟩ | ⟨-, e⟩
    · exact .inr (.inl (congrArg some e))
    · exact .inr (.inr (.inl (congrArg some e)))
    · exact .inr (.inr (.inr (congrArg some e)))
  · exact .inl (h.fl fun a b e => hi ⟨a, b, e⟩)

/-- An instruction's own effect keeps the memory canonical. -/
theorem Effect.mem_wf {i : Instr} {u t : State} (h : Effect i u t) (hwf : u.mem.wf = true) : t.mem.wf = true := by
  rcases h.mem with hmem | ⟨-, v, hmem⟩
  · rw [hmem]; exact hwf
  · rw [hmem]; exact Memory.write_wf _ v hwf

/-- An instruction's own effect does not end in `Faulted`: it halts or leaves the run state. -/
theorem Effect.run_ne_faulted {i : Instr} {u t : State} (hrun : u.run = .running) (h : Effect i u t) :
    t.run ≠ .faulted := by
  by_cases hi : i = .hlt
  · subst hi
    cases h
    exact RunState.noConfusion
  · rw [h.run hi, hrun]
    exact RunState.noConfusion

/-- At a loaded state the invariant follows from that of a state with the same parameters, when `FL` is the same or
what compare writes, and the record goes with `Faulted`. -/
theorem State.Inv.of_loaded {s t : State} (hs : s.Inv) (hloaded : t.loaded = true) (hconfig : t.config = s.config)
    (hmem : t.mem.wf = true) (hfl : t.fl = s.fl ∨ t.fl = some 1 ∨ t.fl = some 2 ∨ t.fl = some 4)
    (hrecord : t.faultRecord.isSome = true ↔ t.run = .faulted)
    (hinfo : ∀ r, t.faultRecord = some r → r.infoFits) : t.Inv where
  mem := hmem
  flags := by
    rcases hfl with e | e | e | e <;> rw [e]
    · exact hs.flags
    all_goals rintro f ⟨⟩; decide
  flagsUndefined := by
    rw [hconfig]
    rcases hfl with e | e | e | e <;> rw [e]
    · exact hs.flagsUndefined
    all_goals exact fun _ => by decide
  flagsZero := by
    rw [hconfig]
    rcases hfl with e | e | e | e <;> rw [e]
    · exact hs.flagsZero
    all_goals exact fun _ => Option.some_ne_none _
  record := hrecord
  recordInfo := hinfo
  notLoaded := fun h => absurd (hloaded.symm.trans h) Bool.true_eq_false.mp

/-- Moving `pc` keeps the invariant while a program is loaded. -/
theorem State.Inv.advance {s : State} (hs : s.Inv) (hloaded : s.loaded = true) (n : Nat) : (s.advance n).Inv :=
  hs.of_loaded hloaded rfl hs.mem (.inl rfl) hs.record hs.recordInfo

/-- Raising a fault whose information fits its kind keeps the invariant (60_exceptions.md R200, R201). -/
theorem State.Inv.raise {s : State} (hs : s.Inv) (hloaded : s.loaded = true) {k : FaultKind} {p op : Byte} {info : Nat}
    (hinfo : FaultRecord.infoFits ⟨k, p, op, info⟩) : (s.raise k p op info).Inv := by
  refine hs.of_loaded hloaded rfl hs.mem (.inl rfl) (iff_of_true rfl rfl) ?_
  rintro r ⟨⟩
  exact hinfo

/-! ### The two halves of a step -/

/-- The fault of a failing fetch records what the table of faults says; the successor's address is 256 to 258
(log 18). -/
theorem State.Inv.fetch_error {s t : State} (hs : s.Inv) (hloaded : s.loaded = true) (h : s.fetch = .error t) :
    t.Inv := by
  rcases State.fetch_error h with ⟨-, rfl⟩ | ⟨hn, ho, rfl⟩ | ⟨-, -, rfl⟩
  · exact hs.raise hloaded rfl
  · have hle := operandCount_le_three (s.readMem s.pc)
    have hpc := s.pc.isLt
    simp only [State.overflows, Bool.and_eq_true, decide_eq_true_eq] at ho
    obtain ⟨-, hpast⟩ := ho
    exact hs.raise hloaded ⟨rfl, hpast, by simp only; omega⟩
  · exact (hs.advance hloaded _).raise hloaded rfl

/-- A dispatch fault's information fits its kind (60_exceptions.md R200). -/
theorem DispatchInfo.infoFits {i : Instr} {k : FaultKind} {info : Nat} (h : DispatchInfo i k info) (p : Byte) :
    FaultRecord.infoFits ⟨k, p, i.mnemonic.opcode, info⟩ := by
  rcases h with ⟨rfl, rfl⟩ | ⟨rfl, rfl⟩ | ⟨rfl, hinfo⟩ | ⟨rfl, rfl⟩
  · rfl
  · rfl
  · exact hinfo
  · rfl

/-- An instruction's own effect keeps the invariant of a running, loaded state: it records nothing. -/
theorem State.Inv.effect {i : Instr} {u t : State} (hu : u.Inv) (hrun : u.run = .running) (hloaded : u.loaded = true)
    (h : Effect i u t) : t.Inv := by
  obtain ⟨hl, hc, hr⟩ := h.status
  have hnone : t.faultRecord = none := by
    rw [hr, ← Option.not_isSome_iff_eq_none, hu.record, hrun]
    exact RunState.noConfusion
  refine hu.of_loaded (hl.trans hloaded) hc (h.mem_wf hu.mem) h.fl_cases ?_ ?_
  · rw [hnone]
    exact iff_of_false Bool.false_ne_true (h.run_ne_faulted hrun)
  · rw [hnone]
    rintro r ⟨⟩

/-- Executing an instruction keeps the invariant of a running, loaded state. -/
theorem State.Inv.exec {i : Instr} {s t : State} (hs : s.Inv) (hrun : s.run = .running) (hloaded : s.loaded = true)
    (h : exec i s = .next t) : t.Inv := by
  have hpast : (past i s).Inv := hs.advance hloaded _
  rcases exec_cases h with ⟨k, info, hinfo, rfl⟩ | he
  · exact hpast.raise hloaded (hinfo.infoFits s.pc)
  · exact hpast.effect hrun hloaded he

/-! ### The statements -/

/-- Settles O21: a step does nothing, or it is enabled and then either its fetch faults or an instruction runs. -/
theorem stepKeepsInvariant : Obligations.StepKeepsInvariant := by
  intro s t hs h
  rcases step_next_cases h with ⟨-, rfl⟩ | ⟨he, hf⟩ | ⟨he, i, -, hexec⟩
  · exact hs
  · obtain ⟨-, hloaded⟩ := s.stepEnabled_iff.mp he
    exact hs.fetch_error hloaded hf
  · obtain ⟨hrun, hloaded⟩ := s.stepEnabled_iff.mp he
    exact hs.exec hrun hloaded hexec

/-- Settles O22: `FL` is the only field that depends on the parameters. -/
theorem resetMeetsInvariant : Obligations.ResetMeetsInvariant := by
  intro c
  refine ⟨State.resetWith_mem_wf c, ?flags, ?undefined, ?zero,
    iff_of_false Bool.false_ne_true (RunState.noConfusion : RunState.running ≠ .faulted),
    (nofun : ∀ r, none = some r → FaultRecord.infoFits r), fun _ => rfl⟩
  all_goals simp only [State.resetWith]
  case flags => cases c.flReset <;> rintro f ⟨⟩; exact .inl rfl
  case undefined => rintro h; simp [h, resetFlags]
  case zero => rintro h; simp [h, resetFlags]

/-- A state that a step leaves as it is stays so. -/
theorem State.stepTimes_of_step_self {s : State} (h : step s = .next s) (k : Nat) : s.stepTimes k = some s := by
  induction k with
  | zero => rfl
  | succ k ih => simp only [State.stepTimes, h, ih]

/-- Settles O24: a record means `Faulted`, in which no step is enabled. -/
theorem oneFaultAtMost : Obligations.OneFaultAtMost := by
  intro s r hs hr
  have hfaulted : s.run = .faulted := hs.record.mp (by simp [hr])
  exact State.stepTimes_of_step_self (step_of_not_running (by simp [hfaulted]))

end Sys2Proof.Machine

/-! PROOFS about faults: what a fault leaves unchanged, and the order in which an instruction's faults are tested
(60_exceptions.md R202, R203). -/

namespace Sys2Proof.Machine

/-! ### What a fault leaves -/

/-- A step that faults out of an instruction raises one of its dispatch faults. -/
theorem dispatchFaulted_of_faulted {i : Instr} {s t : State} (hrun : s.run = .running) (h : exec i s = .next t)
    (ht : t.run = .faulted) : DispatchFaulted i s t :=
  (exec_cases h).resolve_right fun he => he.run_ne_faulted ((State.advance_run s _).trans hrun) ht

/-- No dispatch fault is about an address. -/
theorem DispatchInfo.kind_ne {i : Instr} {k : FaultKind} {info : Nat} (h : DispatchInfo i k info) :
    k ≠ .addressOutOfRange := by
  rcases h with ⟨rfl, -⟩ | ⟨rfl, -⟩ | ⟨rfl, -⟩ | ⟨rfl, -⟩ <;> exact FaultKind.noConfusion

/-- Settles O29: the fault is raised by the fetch, or by an instruction whose opcode byte stands at `pc` and whose
length that byte gives. -/
theorem faultChangesOnlyRecordAndPc : Obligations.FaultChangesOnlyRecordAndPc := by
  intro s t hrun h ht
  rcases step_next_cases h with ⟨-, rfl⟩ | ⟨-, hf⟩ | ⟨-, i, hf, hexec⟩
  · exact RunState.noConfusion (hrun.symm.trans ht)
  · exact State.fetch_error_faultedFrom hf
  · obtain ⟨k, info, hinfo, rfl⟩ := dispatchFaulted_of_faulted hrun hexec ht
    have hfaulted := dispatchFault_faultedFrom i s k info
    have hlt := operandCount_opcode_lt i.mnemonic
    rw [State.fetch_ok_opcode hf]
    refine ⟨k, info, hfaulted.pc ▸ hfaulted, fun hc => ?_, fun _ _ => ?_⟩
    · rcases hc with hthree | hkind
      · exact absurd hthree hlt.ne
      · exact absurd hkind hinfo.kind_ne
    · rw [hfaulted.pc, operandCount_opcode, ← add_ofNat_one_add]
      rfl

/-! ### Which fault an instruction raises -/

/-- A disabled opcode faults before any operand is checked (30_encoding.md R72). -/
theorem raisesAt_of_disabled {i : Instr} {s : State} (hd : disabledIn s.config i.mnemonic = true) :
    raisesAt i s .unsupportedOperation i.mnemonic.opcode.toNat := by
  rcases execForm i s with ⟨-, h⟩ | ⟨hd', -⟩ | ⟨hd', -⟩ | ⟨hd', -⟩
  · exact raisesAt_of_exec h
  all_goals exact absurd (hd.symm.trans hd') Bool.true_eq_false.mp

/-- The only operand of a one-register form is the first that names no register. -/
theorem operand_of_find_one {a r : Byte} (h : [a].find? (fun x => !registerByteOk x) = some r) :
    a = r ∧ ¬ a.toNat < 8 := by
  simpa [registerByteOk, and_comm] using h

/-- The first operand of a two-register form that names no register is A, or it is B and A names one. -/
theorem operand_of_find_two {a b r : Byte} (h : [a, b].find? (fun x => !registerByteOk x) = some r) :
    (a = r ∧ ¬ a.toNat < 8) ∨ (a.toNat < 8 ∧ b = r ∧ ¬ b.toNat < 8) := by
  by_cases ha : a.toNat < 8
  · exact .inr ⟨ha, operand_of_find_one (by simpa [registerByteOk, ha] using h)⟩
  · exact .inl ⟨by simpa [registerByteOk, ha] using h, ha⟩

/-- Settles O31: each form checks its register operands, A before B, whatever the instruction's behaviour. -/
theorem illFormedInstructionsFault : Obligations.IllFormedInstructionsFault := by
  intro i s r hd hr
  rcases execForm i s with ⟨hd', -⟩ | ⟨-, hops, -⟩ | ⟨-, hops, h⟩ | ⟨-, hops, h⟩
  · exact absurd (hd'.symm.trans hd) Bool.true_eq_false.mp
  · rw [hops] at hr; cases hr
  · obtain ⟨rfl, ha⟩ := operand_of_find_one (hops ▸ hr)
    exact raisesAt_of_exec (h.trans (onRegister_of_not_lt _ s _ ha))
  · rcases operand_of_find_two (hops ▸ hr) with ⟨rfl, ha⟩ | ⟨ha, rfl, hb⟩
    · exact raisesAt_of_exec (h.trans (onRegisters_of_not_lt_left _ s _ ha))
    · exact raisesAt_of_exec (h.trans (onRegisters_of_not_lt_right _ s _ ha hb))

end Sys2Proof.Machine

/-! PROOFS about the declared opcodes of 45_unimplemented.md and the priority of faults at a step (60_exceptions.md
R203): what an instruction raises, carried over to the step that fetches it. -/

namespace Sys2Proof.Machine

/-! ### Declared opcodes -/

/-- An enabled extended jump is one of a machine with `EXT_BRANCHES`. -/
theorem extBranches_of_enabled {c : Config} (h : decide (c.extBranches = .unimplemented) = false) :
    c.extBranches = .implemented := by
  cases hc : c.extBranches with
  | unimplemented => simp [hc] at h
  | implemented => rfl

/-- Settles O52: enabled, the four are conditional jumps like JEQ and JNE; disabled, they are opcodes that fault. -/
theorem extendedJumpRules : Obligations.ExtendedJumpRules := by
  refine ⟨branchRule_of_onRegister (fun _ => rfl) fun a s => extBranch_of_implemented _,
    branchRule_of_onRegister (fun _ => rfl) fun a s => extBranch_of_implemented _,
    branchRule_of_onRegister (fun _ => rfl) fun a s => extBranch_of_implemented _,
    branchRule_of_onRegister (fun _ => rfl) fun a s => extBranch_of_implemented _, fun a s h => ?_⟩
  have hd : decide (s.config.extBranches = .unimplemented) = true := decide_eq_true h
  exact ⟨raisesAt_of_disabled hd, raisesAt_of_disabled hd, raisesAt_of_disabled hd, raisesAt_of_disabled hd⟩

/-- Settles O53: INT and IRET are disabled under every setting. -/
theorem interruptOpcodesAreUnsupported : Obligations.InterruptOpcodesAreUnsupported :=
  ⟨fun _ => rfl, rfl, fun _ _ => ⟨raisesAt_of_disabled rfl, raisesAt_of_disabled rfl⟩⟩

/-! ### What a built instruction raises -/

section built

variable {m : Mnemonic} {a b : Byte} {s : State}

/-- Operand A of a row that has operands is its first register operand. -/
theorem Mnemonic.registerOperands_build (h : 1 ≤ m.operandCount) :
    ∃ ops, (m.build a b).registerOperands = a :: ops := by
  cases m with
  | ret | hlt | iret => exact absurd h (by decide)
  | _ => exact ⟨_, rfl⟩

/-- A row of the two-register format has A and B. -/
theorem Mnemonic.registerOperands_build_two (h : m.format = .f2rr) : (m.build a b).registerOperands = [a, b] := by
  cases m with
  | cmp | add | sub | mul | mod | and | or | xor | shl | shr => rfl
  | _ => cases h

/-- Operand A above 7 is found first. -/
theorem raisesAt_of_operand_left (hd : disabledIn s.config m = false) (hn : 1 ≤ m.operandCount) (ha : 7 < a.toNat) :
    raisesAt (m.build a b) s .invalidRegisterIndex a.toNat := by
  obtain ⟨ops, hops⟩ := Mnemonic.registerOperands_build (a := a) (b := b) hn
  have hbad : ¬ a.toNat < 8 := Nat.not_lt.mpr ha
  exact illFormedInstructionsFault _ s a (by rw [m.mnemonic_build, hd]) (by simp [hops, registerByteOk, hbad])

/-- Operand B above 7 is found after an operand A that is not. -/
theorem raisesAt_of_operand_right (hd : disabledIn s.config m = false) (hf : m.format = .f2rr) (ha : a.toNat ≤ 7)
    (hb : 7 < b.toNat) : raisesAt (m.build a b) s .invalidRegisterIndex b.toNat := by
  have hok : a.toNat < 8 := Nat.lt_succ_of_le ha
  have hbad : ¬ b.toNat < 8 := Nat.not_lt.mpr hb
  exact illFormedInstructionsFault _ s b (by rw [m.mnemonic_build, hd])
    (by simp [Mnemonic.registerOperands_build_two hf, registerByteOk, hok, hbad])

/-- An enabled jump on a register that exists tests whether `FL` has a value (10_state.md R31). -/
theorem raisesAt_of_flags_none (hd : disabledIn s.config m = false) (ht : testsFlags m = true) (ha : a.toNat ≤ 7)
    (hfl : s.fl = none) : raisesAt (m.build a b) s .flagsUndefined 0 := by
  obtain ⟨⟨-, -, hjeq, -⟩, ⟨-, -, hjne, -⟩⟩ := equalityJumpRules
  obtain ⟨⟨-, -, hjgt, -⟩, ⟨-, -, hjlt, -⟩, ⟨-, -, hjle, -⟩, ⟨-, -, hjge, -⟩, -⟩ := extendedJumpRules
  cases m with
  | jeq => exact hjeq a s trivial ha hfl
  | jne => exact hjne a s trivial ha hfl
  | jgt => exact hjgt a s (extBranches_of_enabled hd) ha hfl
  | jlt => exact hjlt a s (extBranches_of_enabled hd) ha hfl
  | jle => exact hjle a s (extBranches_of_enabled hd) ha hfl
  | jge => exact hjge a s (extBranches_of_enabled hd) ha hfl
  | _ => exact absurd ht Bool.false_ne_true

end built

/-! ### What the step raises -/

/-- The next step faults with a record of this kind and information for the opcode byte at `pc`. -/
def StepRaises (s : State) (k : FaultKind) (info : Nat) : Prop :=
  ∃ t, step s = .next t ∧ t.run = .faulted ∧ t.faultRecord = some ⟨k, s.pc, s.readMem s.pc, info⟩

/-- A step whose fetch fails raises the fetch's fault. -/
theorem stepRaises_of_fetch_error {s t : State} {k : FaultKind} {info : Nat} {pc' : Byte} (he : s.stepEnabled = true)
    (hf : s.fetch = .error t) (h : FaultedFrom s t k (s.readMem s.pc) info pc') : StepRaises s k info :=
  ⟨t, step_of_fetch_error he hf, h.run, h.record⟩

/-- A step raises what the instruction at `pc` raises, if that fits: its row is the one of the opcode byte, its operands
are the two bytes after it. -/
theorem stepRaises_of_raisesAt {s : State} {m : Mnemonic} {k : FaultKind} {info : Nat} (hrun : s.run = .running)
    (hloaded : s.loaded = true) (hop : m.opcode = s.readMem s.pc) (hfits : s.fits m.operandCount)
    (h : raisesAt (m.build (s.readMem (s.pc + 1)) (s.readMem (s.pc + 2))) s k info) : StepRaises s k info := by
  have hdecode := m.decode_build (s.readMem (s.pc + 1)) (s.readMem (s.pc + 2))
  rw [hop] at hdecode
  have hstep := stepRunsTheDecodedInstruction s _ _ hrun hloaded hdecode (by rw [m.mnemonic_build]; exact hfits)
  obtain ⟨t, hexec, hfaulted⟩ := h
  rw [m.mnemonic_build, hop] at hfaulted
  exact ⟨t, hstep.trans hexec, hfaulted.run, hfaulted.record⟩

/-- Settles O30: the first three clauses are the fetch's tests in their order, the others those of the row's form. -/
theorem faultPriorityOrder : Obligations.FaultPriorityOrder := by
  intro s hrun hloaded op n a b raises
  have he := State.stepEnabled_of_running_loaded hrun hloaded
  refine ⟨fun hn => ?three, fun hn hfault hpast => ?address, fun hn hfits hop => ?table, fun m hop hfits => ?row⟩
  case three => exact stepRaises_of_fetch_error he (State.fetch_of_operandCount_three hn) (s.raise_faultedFrom _ _ _)
  case address =>
    have ho : s.overflows n = true := by simp [State.overflows, hfault, hpast]
    exact stepRaises_of_fetch_error he (State.fetch_of_overflows hn ho) (s.raise_faultedFrom _ _ _)
  case table =>
    have hfetch := State.fetch_of_unlisted hn (State.overflows_of_fits hfits) (lookupOpcode_eq_none hop)
    exact stepRaises_of_fetch_error he hfetch (s.advance_raise_faultedFrom _ _ _ _)
  case row =>
    have hcount : n = m.operandCount := (congrArg operandCount hop).symm.trans (operandCount_opcode m)
    rw [hcount] at hfits
    have hraises {k info} (h : raisesAt (m.build a b) s k info) : StepRaises s k info :=
      stepRaises_of_raisesAt hrun hloaded hop hfits h
    refine ⟨fun hd => ?disabled, fun hd => ⟨fun hn ha => ?operandA, fun hf ha hb => ?operandB,
      fun ht ha hfl => ?flags, fun hm ha hb hzero => ?divisor⟩⟩
    case disabled =>
      have h := raisesAt_of_disabled (i := m.build a b) (s := s) (by rw [m.mnemonic_build, hd])
      rw [m.mnemonic_build, hop] at h
      exact hraises h
    case operandA => exact hraises (raisesAt_of_operand_left hd (hcount ▸ hn) ha)
    case operandB => exact hraises (raisesAt_of_operand_right hd hf ha hb)
    case flags => exact hraises (raisesAt_of_flags_none hd ht ha hfl)
    case divisor =>
      obtain ⟨-, hmod⟩ := remainderRule
      subst hm
      exact hraises (hmod a b hb s (Nat.lt_succ_of_le ha) hzero)

end Sys2Proof.Machine

/-! PROOFS about sequences of instructions: a push followed by a pop, a fetch of a byte just pushed, a call followed by
a return; and two consequences of a single instruction's rule. Each is composed from the rules of the instructions. -/

namespace Sys2Proof.Machine

/-! ### The stack pointer and memory over a push and a pop -/

/-- The guarded increment of pop takes back push's decrement exactly for 1 to `0xF4` (41_stack.md R114). -/
theorem guarded_increment_eq_spAfterPushPop (sp : Byte) :
    (if (sp - 1).toNat < 0xF4 then sp - 1 + 1 else sp - 1) = spAfterPushPop sp := by
  have hguard : (sp - 1).toNat < 0xF4 ↔ 1 ≤ sp.toNat ∧ sp.toNat ≤ 0xF4 := by
    bv_omega
  simp only [spAfterPushPop, hguard, BitVec.sub_add_cancel]

/-- Frames compose: registers outside `ks` are kept over both steps. -/
theorem regsKept.trans {ks : List (Fin 8)} {s t u : State} (h : regsKept ks s t) (h' : regsKept ks t u) :
    regsKept ks s u := fun k hk => (h' k hk).trans (h k hk)

/-- Memory outside `stored` stays kept when all of it is kept afterwards. -/
theorem memKept.trans {stored : List Byte} {s t u : State} (h : memKept stored s t) (h' : memKept [] t u) :
    memKept stored s u := fun a ha => (h' a List.not_mem_nil).trans (h a ha)

/-- Settles O36: the pop reads at the address the push stored to. -/
theorem pushThenPopRoundTrip : Obligations.PushThenPopRoundTrip := by
  intro a ha s hne hwf
  obtain ⟨-, -, hpush⟩ := pushRule
  obtain ⟨-, -, hpop⟩ := popRule
  obtain ⟨t, hexec, hsp, hstored, -, hregs, -, hmem, -⟩ := hpush a ha s
  obtain ⟨u, hexec', hvalue, hsp', -, hframe⟩ := hpop a ha t
  have hback : u.reg ⟨a.toNat, ha⟩ = s.reg ⟨a.toNat, ha⟩ := by rw [hvalue, hsp, hstored hwf]
  refine ⟨t, u, hexec, hexec', hback, ?stackPointer, ?pushed, fun k hk => ?registers, hmem.trans hframe.mem⟩
  case stackPointer => rw [hsp' hne, hsp, guarded_increment_eq_spAfterPushPop]
  case pushed => rw [hframe.mem _ List.not_mem_nil, hstored hwf]
  case registers =>
    by_cases hka : k = ⟨a.toNat, ha⟩
    · rw [hka, hback]
    · exact (hframe.regs k (List.not_mem_cons_of_ne_of_not_mem hka hk)).trans (hregs k hk)

/-- Settles O37: PUSH leaves `pc` at the address it stores to, and a byte 0x01 there decodes to HLT. -/
theorem pushedByteIsFetchedNext : Obligations.PushedByteIsFetchedNext := by
  intro a ha s hwf hrun hloaded hnext
  obtain ⟨-, -, hpush⟩ := pushRule
  obtain ⟨t, hexec, -, hstored, hpc, -, -, -, -, htrun, -, htloaded, -⟩ := hpush a ha s
  have hread : t.readMem t.pc = s.reg ⟨a.toNat, ha⟩ := by rw [hpc, ← hnext, hstored hwf]
  refine ⟨t, hexec, hread, fun hone hfits => ?_⟩
  obtain ⟨-, hhalt, -⟩ := haltRule
  obtain ⟨u, hexec', hhalted, -⟩ := hhalt t
  have hdecode := decodeInvertsEncode .hlt [t.readMem (t.pc + 1), t.readMem (t.pc + 2)]
  have hbyte : t.readMem t.pc = Mnemonic.hlt.opcode := hread.trans hone
  have hstep := stepRunsTheDecodedInstruction t .hlt _ (htrun.trans hrun) (htloaded.trans hloaded)
    (by rw [hbyte]; exact hdecode) hfits
  exact ⟨u, hstep.trans hexec', hhalted⟩

/-- Settles O44: the return pops the address that the call pushed. -/
theorem callThenReturnComesBack : Obligations.CallThenReturnComesBack := by
  intro a ha s hwf
  obtain ⟨-, -, hcall⟩ := callRule
  obtain ⟨-, hret⟩ := returnRule
  obtain ⟨t, hexec, hpc, hsp, hstored, hregs, -, hmem, -⟩ := hcall a ha s
  obtain ⟨u, hexec', hpc', hsp', hframe⟩ := hret t
  refine ⟨t, u, hexec, hexec', hpc, ?returned, ?stackPointer, hregs.trans hframe.regs, hmem.trans hframe.mem⟩
  case returned => rw [hpc', hsp, hstored hwf]
  case stackPointer => rw [hsp', hsp, guarded_increment_eq_spAfterPushPop]

/-! ### Consequences of one rule -/

/-- Settles O39: compare writes 1, 2 or 4, and 1 when the two registers are equal, as one register is to itself. -/
theorem compareLeavesOneFlag : Obligations.CompareLeavesOneFlag := by
  intro a b s t ha hb h
  rw [exec_cmp, onRegisters_of_lt _ s _ ha hb] at h
  cases h
  simp only [State.setFlags_fl, State.advance_reg, Option.some.injEq]
  rcases compareFlags_cases (s.reg ⟨a.toNat, ha⟩) (s.reg ⟨b.toNat, hb⟩) with ⟨-, e⟩ | ⟨hlt, e⟩ | ⟨hlt, e⟩
  · exact ⟨.inl e, fun _ => e⟩
  · refine ⟨.inr (.inl e), ?_⟩
    rintro rfl
    exact absurd hlt (Nat.lt_irrefl _)
  · refine ⟨.inr (.inr e), ?_⟩
    rintro rfl
    exact absurd hlt (Nat.lt_irrefl _)

/-- A byte that wraps from an exact value divisible by 256 is 0. -/
theorem eq_zero_of_wrapsTo {w : Byte} {v : Int} (h : wrapsTo w v) (hv : v % 256 = 0) : w = 0 := by
  apply BitVec.eq_of_toNat_eq
  simp only [wrapsTo, hv] at h
  exact Int.ofNat_eq_zero.mp h

/-- From a count of 8 on, `2 ^ c` is a multiple of 256. -/
theorem dvd_two_pow_of_count {c : Nat} (hc : 8 ≤ c) : 256 ∣ 2 ^ c := Nat.pow_dvd_pow 2 hc

/-- Then so is its product with a byte. -/
theorem mul_two_pow_emod {c : Nat} (hc : 8 ≤ c) (u : Byte) : ((u.toNat * 2 ^ c : Nat) : Int) % 256 = 0 :=
  Int.emod_eq_zero_of_dvd (Int.natCast_dvd_natCast.mpr ((dvd_two_pow_of_count hc).mul_left _))

/-- And it is more than any byte. -/
theorem div_two_pow_emod {c : Nat} (hc : 8 ≤ c) (u : Byte) : ((u.toNat / 2 ^ c : Nat) : Int) % 256 = 0 := by
  have hless : u.toNat < 2 ^ c := u.isLt.trans_le (Nat.le_of_dvd (Nat.two_pow_pos c) (dvd_two_pow_of_count hc))
  rw [Nat.div_eq_of_lt hless]
  rfl

/-- Settles O51: the exact results of the shift rules are 0 modulo 256. -/
theorem shiftByEightOrMoreGivesZero : Obligations.ShiftByEightOrMoreGivesZero := by
  intro a b ha hb s t hcount h
  obtain ⟨⟨-, -, hshl⟩, ⟨-, -, hshr⟩⟩ := shiftRules
  rcases h with h | h
  · obtain ⟨u, hu, hresult, -⟩ := hshl a b ha hb s trivial
    cases hu.symm.trans h
    exact eq_zero_of_wrapsTo hresult (mul_two_pow_emod hcount _)
  · obtain ⟨u, hu, hresult, -⟩ := hshr a b ha hb s trivial
    cases hu.symm.trans h
    exact eq_zero_of_wrapsTo hresult (div_two_pow_emod hcount _)

end Sys2Proof.Machine

/-! PROOFS about the assembler line (30_encoding.md R76): the line is a mnemonic, a blank and operand texts between
commas, and no part holds a blank or a comma itself, so trimming and splitting give the parts back. -/

namespace Sys2Proof.Machine

/-! ### Trimming -/

/-- Nothing is dropped from the front of a list whose first element, if any, is not to be dropped. -/
theorem dropWhile_eq_self_of_head {p : Char → Bool} {l : List Char} (h : ∀ c ∈ l.head?, p c = false) :
    l.dropWhile p = l := by
  cases l with
  | nil => rfl
  | cons c l => exact List.dropWhile_cons_of_neg (by simp [h c rfl])

/-- Trimming leaves a list whose two ends are not to be dropped. -/
theorem trim_eq_self {p : Char → Bool} {l : List Char} (hfirst : ∀ c ∈ l.head?, p c = false)
    (hlast : ∀ c ∈ l.getLast?, p c = false) : ((l.dropWhile p).reverse.dropWhile p).reverse = l := by
  rw [dropWhile_eq_self_of_head hfirst, dropWhile_eq_self_of_head (List.head?_reverse ▸ hlast), List.reverse_reverse]

/-- A text that is not empty and has no blank at either end. -/
structure Trimmed (l : List Char) : Prop where
  ne_nil : l ≠ []
  first : ∀ c ∈ l.head?, isBlank c = false
  last : ∀ c ∈ l.getLast?, isBlank c = false

/-- Trimming leaves such a text. -/
theorem Trimmed.trimBlanks_eq {l : List Char} (h : Trimmed l) : trimBlanks l = l := trim_eq_self h.first h.last

/-- Between two such texts anything may stand. -/
theorem Trimmed.append {a b : List Char} (ha : Trimmed a) (m : List Char) (hb : Trimmed b) :
    Trimmed (a ++ (m ++ b)) where
  ne_nil := List.append_ne_nil_of_left_ne_nil ha.ne_nil _
  first := by rw [List.head?_append_of_ne_nil _ ha.ne_nil]; exact ha.first
  last := by
    rw [← List.append_assoc, List.getLast?_append_of_ne_nil _ hb.ne_nil]
    exact hb.last

/-! ### Words -/

/-- A part of a line: at least one character, all of them letters and digits. -/
structure IsWord (w : List Char) : Prop where
  ne_nil : w ≠ []
  alphanumeric : ∀ c ∈ w, c.isAlphanum = true

/-- A letter or digit is neither a blank nor a comma. -/
theorem not_separator_of_isAlphanum {c : Char} (h : c.isAlphanum = true) : isBlank c = false ∧ c ≠ ',' := by
  refine ⟨?_, by rintro rfl; exact absurd h (by decide)⟩
  rw [isBlank, Bool.or_eq_false_iff, beq_eq_false_iff_ne, beq_eq_false_iff_ne]
  constructor <;> rintro rfl <;> exact absurd h (by decide)

section word

variable {w : List Char} (h : IsWord w)
include h

/-- A word holds no blank. -/
theorem IsWord.not_blank : ∀ c ∈ w, isBlank c = false := fun c hc =>
  (not_separator_of_isAlphanum (h.alphanumeric c hc)).1

/-- A word has no blank at either end. -/
theorem IsWord.trimmed : Trimmed w :=
  ⟨h.ne_nil, fun c hc => h.not_blank c (List.mem_of_mem_head? hc), fun c hc => h.not_blank c (List.mem_of_getLast? hc)⟩

/-- A text that begins with a word and a comma is split there. -/
theorem IsWord.splitCommas_append_comma (rest : List Char) :
    splitCommas (w ++ ',' :: rest) = w :: splitCommas rest := by
  obtain ⟨-, halpha⟩ := h
  induction w with
  | nil => simp [splitCommas]
  | cons c w ih =>
    obtain ⟨-, hc⟩ := not_separator_of_isAlphanum (halpha c List.mem_cons_self)
    have hw := ih fun d hd => halpha d (List.mem_cons_of_mem _ hd)
    simp only [List.cons_append, splitCommas, hc, hw, if_false]

/-- A word is not split. -/
theorem IsWord.splitCommas_eq : splitCommas w = [w] := by
  obtain ⟨-, halpha⟩ := h
  induction w with
  | nil => rfl
  | cons c w ih =>
    obtain ⟨-, hc⟩ := not_separator_of_isAlphanum (halpha c List.mem_cons_self)
    have hw := ih fun d hd => halpha d (List.mem_cons_of_mem _ hd)
    simp only [splitCommas, hc, hw, if_false]

/-- A word has no space to be split at. -/
theorem IsWord.splitCommas_space_eq : splitCommas (' ' :: w) = [' ' :: w] := by
  simp [splitCommas, h.splitCommas_eq]

end word

/-! ### Lines -/

/-- A line without operands is its mnemonic. -/
theorem assembleLine_word {name : List Char} (h : IsWord name) :
    assembleLine name = (parseMnemonic name).bind fun m => parseOperands m [] := by
  have hword : ∀ c ∈ name, (!isBlank c) = true := fun c hc => by rw [h.not_blank c hc]; rfl
  have hname : name.takeWhile (fun c => !isBlank c) = name := List.takeWhile_eq_self_iff.mpr hword
  have hrest : name.dropWhile (fun c => !isBlank c) = [] := List.dropWhile_eq_nil_iff.mpr hword
  simp only [assembleLine, h.trimmed.trimBlanks_eq, hname, hrest]
  rfl

/-- A line with operands is its mnemonic, a blank and the operand texts between commas. -/
theorem assembleLine_word_append {name ops : List Char} (h : IsWord name) (hops : Trimmed ops) :
    assembleLine (name ++ ' ' :: ops) =
      (parseMnemonic name).bind fun m => parseOperands m ((splitCommas ops).map trimBlanks) := by
  have hword : ∀ c ∈ name, (!isBlank c) = true := fun c hc => by rw [h.not_blank c hc]; rfl
  have hline : trimBlanks (name ++ ' ' :: ops) = name ++ ' ' :: ops := (h.trimmed.append [' '] hops).trimBlanks_eq
  have hname : (name ++ ' ' :: ops).takeWhile (fun c => !isBlank c) = name := by
    rw [List.takeWhile_append_of_pos hword]; exact List.append_nil _
  have hrest : (name ++ ' ' :: ops).dropWhile (fun c => !isBlank c) = ' ' :: ops := by
    rw [List.dropWhile_append_of_pos hword]; rfl
  have hblank : trimBlanks (' ' :: ops) = ops := hops.trimBlanks_eq
  simp only [assembleLine, hline, hname, hrest, hblank, hops.ne_nil, if_false]

/-! ### Mnemonics, registers and immediates -/

/-- A mnemonic's spelling is a word. -/
theorem isWord_mnemonicText (m : Mnemonic) : IsWord (mnemonicText m).toList := by
  have halpha : (mnemonicText m).toList.all Char.isAlphanum = true := by cases m <;> rfl
  exact ⟨by cases m <;> exact List.cons_ne_nil _ _, List.all_eq_true.mp halpha⟩

/-- A mnemonic is read back from its spelling. -/
theorem parseMnemonic_mnemonicText (m : Mnemonic) : parseMnemonic (mnemonicText m).toList = some m := by
  cases m <;> rfl

/-- A decimal digit is a letter or digit. -/
theorem isAlphanum_of_isDigit {c : Char} (h : c.isDigit = true) : c.isAlphanum = true := by
  rw [Char.isAlphanum, h, Bool.or_true]

/-- The decimal digits of a number are digits. -/
theorem isDigit_of_mem_decimal {n : Nat} {c : Char} (h : c ∈ Nat.toDigits 10 n) : c.isDigit = true :=
  Nat.isDigit_of_mem_toDigits (by decide) (by decide) h

/-- The decimal digits of a number are a word. -/
theorem isWord_decimal (n : Nat) : IsWord (Nat.toDigits 10 n) :=
  ⟨Nat.toDigits_ne_nil, fun _ hc => isAlphanum_of_isDigit (isDigit_of_mem_decimal hc)⟩

/-- A register's text is a word. -/
theorem isWord_registerText (r : Byte) : IsWord (registerText r) := by
  refine ⟨List.cons_ne_nil _ _, fun c hc => ?_⟩
  rcases List.mem_cons.mp hc with rfl | hc
  · rfl
  · exact (isWord_decimal _).alphanumeric c hc

/-- The decimal digits are the characters from 0 to 9. -/
theorem isDigit_iff {c : Char} : c.isDigit = true ↔ '0' ≤ c ∧ c ≤ '9' := by
  rw [Char.isDigit, Bool.and_eq_true, decide_eq_true_iff, decide_eq_true_iff]
  rfl

/-- The value of a decimal digit. -/
theorem digitValue_of_isDigit {c : Char} (h : c.isDigit = true) : digitValue c = some (c.toNat - '0'.toNat) := by
  rw [digitValue, if_pos (isDigit_iff.mp h)]

/-- A decimal digit is below 10. -/
theorem digit_lt_ten {c : Char} (h : c.isDigit = true) : c.toNat - '0'.toNat < 10 := by
  obtain ⟨-, hle⟩ := isDigit_iff.mp h
  have hnat : c.toNat ≤ 57 := hle
  have hzero : '0'.toNat = 48 := rfl
  omega

/-- Decimal digits are read as the number they write. -/
theorem digitsValue_of_isDigit {l : List Char} (acc : Nat) (h : ∀ c ∈ l, c.isDigit = true) :
    digitsValue 10 acc l = some (Nat.ofDigitChars 10 l acc) := by
  induction l generalizing acc with
  | nil => rfl
  | cons c l ih =>
    have hc := h c List.mem_cons_self
    have hl := fun acc => ih acc fun d hd => h d (List.mem_cons_of_mem _ hd)
    rw [digitsValue, digitValue_of_isDigit hc, Option.bind_some, if_pos (digit_lt_ten hc), hl, Nat.ofDigitChars_cons]

/-- A text of digits is no hexadecimal and no binary number. -/
theorem parseImmediate_of_isDigit {l : List Char} (h : ∀ c ∈ l, c.isDigit = true) :
    parseImmediate l = (numeral 10 l).bind fun n => if n < 256 then some (BitVec.ofNat 8 n) else none := by
  unfold parseImmediate
  split
  · exact absurd (h 'x' (by simp)) (by decide)
  · exact absurd (h 'b' (by simp)) (by decide)
  · rfl

/-- An immediate is read back from its decimal digits. -/
theorem parseImmediate_decimal (v : Byte) : parseImmediate (Nat.toDigits 10 v.toNat) = some v := by
  rw [parseImmediate_of_isDigit fun _ => isDigit_of_mem_decimal, numeral, if_neg Nat.toDigits_ne_nil,
    digitsValue_of_isDigit 0 fun _ => isDigit_of_mem_decimal, Nat.ofDigitChars_ten_toDigits, Option.bind_some,
    if_pos v.isLt]
  simp

/-- A register is read back from its text. -/
theorem parseRegister_registerText {r : Byte} (h : r.toNat < 8) : parseRegister (registerText r) = some r := by
  have hten : r.toNat < 10 := h.trans (by decide)
  have hdigit : Nat.toDigits 10 r.toNat = [Nat.digitChar r.toNat] := Nat.toDigits_of_lt_base hten
  have hvalue : digitValue (Nat.digitChar r.toNat) = some r.toNat := by
    rw [digitValue_of_isDigit (isDigit_of_mem_decimal (hdigit ▸ List.mem_singleton_self _)),
      Nat.toNat_digitChar_of_lt_ten hten]
    simp
  rw [registerText, hdigit, parseRegister, hvalue, Option.bind_some, if_pos h]
  simp

/-! ### Reading a line back -/

section formats

variable {i : Instr} {a b : Byte}

/-- The line of an instruction without operands. -/
theorem assembleLine_f0 (hf : i.mnemonic.format = .f0) (hi : i.mnemonic.build 0 0 = i) :
    assembleLine (lineOf i) = some i := by
  have hline : lineOf i = (mnemonicText i.mnemonic).toList := by simp only [lineOf, hf]
  rw [hline, assembleLine_word (isWord_mnemonicText _), parseMnemonic_mnemonicText, Option.bind_some]
  simp only [parseOperands, hf, hi]

/-- The line of an instruction with one register operand. -/
theorem assembleLine_f1r (hf : i.mnemonic.format = .f1r) (hops : i.operands = [a]) (ha : a.toNat < 8)
    (hi : i.mnemonic.build a 0 = i) : assembleLine (lineOf i) = some i := by
  have hword := isWord_registerText a
  have hline : lineOf i = (mnemonicText i.mnemonic).toList ++ ' ' :: registerText a := by simp only [lineOf, hf, hops]
  rw [hline, assembleLine_word_append (isWord_mnemonicText _) hword.trimmed, parseMnemonic_mnemonicText,
    Option.bind_some, hword.splitCommas_eq, List.map_singleton, hword.trimmed.trimBlanks_eq]
  simp only [parseOperands, hf, parseRegister_registerText ha, Option.map_some, hi]

/-- A line with two operand texts that are words. -/
theorem assembleLine_two_words (m : Mnemonic) {x y : List Char} (hx : IsWord x) (hy : IsWord y) :
    assembleLine ((mnemonicText m).toList ++ ' ' :: x ++ [',', ' '] ++ y) = parseOperands m [x, y] := by
  have hassoc : (mnemonicText m).toList ++ ' ' :: x ++ [',', ' '] ++ y =
      (mnemonicText m).toList ++ ' ' :: (x ++ ([',', ' '] ++ y)) := by simp
  have hsplit : splitCommas (x ++ ([',', ' '] ++ y)) = [x, ' ' :: y] :=
    (hx.splitCommas_append_comma _).trans (congrArg (x :: ·) hy.splitCommas_space_eq)
  have hy' : trimBlanks (' ' :: y) = y := hy.trimmed.trimBlanks_eq
  rw [hassoc, assembleLine_word_append (isWord_mnemonicText m) (hx.trimmed.append _ hy.trimmed),
    parseMnemonic_mnemonicText, Option.bind_some, hsplit, List.map_cons, List.map_singleton,
    hx.trimmed.trimBlanks_eq, hy']

/-- The line of an instruction with two register operands. -/
theorem assembleLine_f2rr (hf : i.mnemonic.format = .f2rr) (hops : i.operands = [a, b]) (ha : a.toNat < 8)
    (hb : b.toNat < 8) (hi : i.mnemonic.build a b = i) : assembleLine (lineOf i) = some i := by
  have hline : lineOf i =
      (mnemonicText i.mnemonic).toList ++ ' ' :: registerText a ++ [',', ' '] ++ registerText b := by
    simp only [lineOf, hf, hops]
  rw [hline, assembleLine_two_words _ (isWord_registerText a) (isWord_registerText b)]
  simp only [parseOperands, hf, parseRegister_registerText ha, parseRegister_registerText hb, Option.map_some,
    Option.bind_some, hi]

/-- The line of an instruction with a register operand and an immediate. -/
theorem assembleLine_f2ri (hf : i.mnemonic.format = .f2ri) (hops : i.operands = [a, b]) (ha : a.toNat < 8)
    (hi : i.mnemonic.build a b = i) : assembleLine (lineOf i) = some i := by
  have hline : lineOf i =
      (mnemonicText i.mnemonic).toList ++ ' ' :: registerText a ++ [',', ' '] ++ Nat.toDigits 10 b.toNat := by
    simp only [lineOf, hf, hops]
  rw [hline, assembleLine_two_words _ (isWord_registerText a) (isWord_decimal _)]
  simp only [parseOperands, hf, parseRegister_registerText ha, parseImmediate_decimal, Option.map_some,
    Option.bind_some, hi]

end formats

/-- Settles O5: by the four formats. -/
theorem assemblerReadsBackItsLines : Obligations.AssemblerReadsBackItsLines := by
  intro i hw
  have hregs : ∀ r ∈ i.registerOperands, r.toNat < 8 := fun r hr => of_decide_eq_true (List.all_eq_true.mp hw r hr)
  cases i with
  | ret | hlt | iret => exact assembleLine_f0 rfl rfl
  | ldi => exact assembleLine_f2ri rfl rfl (hregs _ List.mem_cons_self) rfl
  | prn | push | pop | jmp | jeq | jne | call | inc | dec | not | jgt | jlt | jle | jge | int =>
    exact assembleLine_f1r rfl rfl (hregs _ List.mem_cons_self) rfl
  | cmp | add | sub | mul | mod | and | or | xor | shl | shr =>
    exact assembleLine_f2rr rfl rfl (hregs _ List.mem_cons_self)
      (hregs _ (List.mem_cons_of_mem _ (List.mem_singleton_self _))) rfl

end Sys2Proof.Machine

/-! PROOFS about the host's transactions of 70_reset_and_hazards.md: reset, load, run, inspect and the program text. -/

namespace Sys2Proof.Machine

/-! ### Reset -/

/-- Settles O7: every field but `FL` is the same under every setting. -/
theorem resetLeavesTheSpecsValues : Obligations.ResetLeavesTheSpecsValues := by
  refine ⟨fun c => ⟨rfl, fun h => ?_, fun h => ?_, fun _ => rfl, rfl, rfl, rfl, rfl, rfl⟩, rfl⟩
  · simp only [State.resetWith, h, resetFlags]
  · simp only [State.resetWith, h, resetFlags]

/-! ### Load -/

/-- Loading writes no cell outside the addresses of its bytes. -/
theorem Memory.readAt_writeList_outside {m : Memory} {a x : Nat} {bs : List Byte} (h : x < a ∨ a + bs.length ≤ x) :
    (m.writeList a bs).readAt x = m.readAt x := by
  induction bs generalizing m a with
  | nil => rfl
  | cons b bs ih =>
    rw [List.length_cons] at h
    exact (ih (by omega)).trans (Memory.readAt_writeAt_ne m b (by omega))

/-- A loaded byte is read at its address. -/
theorem Memory.readAt_writeList_inside {m : Memory} {a k : Nat} {bs : List Byte} (hwf : m.wf = true)
    (hfits : a + bs.length ≤ memSize) (hk : k < bs.length) : (m.writeList a bs).readAt (a + k) = bs[k] := by
  induction bs generalizing m a k with
  | nil => exact absurd hk (Nat.not_lt_zero k)
  | cons b bs ih =>
    rw [List.length_cons] at hfits hk
    have hwf' : (m.writeAt a b).wf = true := Memory.writeAt_wfFrom b (Nat.zero_le _) (by omega) hwf
    cases k with
    | zero =>
      have hkept := Memory.readAt_writeList_outside (m := m.writeAt a b) (bs := bs) (.inl (Nat.lt_succ_self a))
      exact hkept.trans (Memory.readAt_writeAt_same b hwf)
    | succ k =>
      have hnext : a + (k + 1) = a + 1 + k := by omega
      rw [hnext, List.getElem_cons_succ]
      exact ih hwf' (by omega) (by omega)

/-- What an accepted load answers (70_reset_and_hazards.md R231). -/
theorem State.load_of_fits {s : State} {bytes : List Byte} (hloaded : s.loaded = false) (hmin : 1 ≤ bytes.length)
    (hmax : bytes.length ≤ 256) :
    s.load bytes = .ok { s with mem := s.mem.writeList 0 bytes, loaded := true } := by
  have hlength : ¬ (bytes.length = 0 ∨ memSize < bytes.length) := by simp only [memSize]; omega
  simp only [State.load, hloaded, hlength, Bool.false_eq_true, if_false]

/-- Settles O9: the memory is that of the bytes written from address 0 up, and the other fields are untouched. -/
theorem loadCopiesTheProgram : Obligations.LoadCopiesTheProgram := by
  intro s bytes hwf
  refine ⟨fun hloaded hmin hmax => ?accepted, fun hloaded hlength => ?length, fun hloaded => ?second⟩
  case accepted =>
    have hfits : 0 + bytes.length ≤ memSize := (Nat.zero_add _).trans_le hmax
    refine ⟨_, State.load_of_fits hloaded hmin hmax, rfl, fun k hk => ?_, fun a ha => ?_,
      Memory.writeList_wf bytes hfits hwf, fun _ _ => rfl, rfl, rfl, rfl, rfl, rfl, rfl⟩
    · have hread := Memory.readAt_writeList_inside hwf hfits hk
      have haddress : (BitVec.ofNat 8 k).toNat = 0 + k := by rw [BitVec.toNat_ofNat]; omega
      rw [← hread, ← haddress]
      rfl
    · exact Memory.readAt_writeList_outside (.inr (by omega))
  case length =>
    have hlength : bytes.length = 0 ∨ memSize < bytes.length := hlength
    simp only [State.load, hloaded, hlength, Bool.false_eq_true, if_true, if_false]
  case second => simp only [State.load, hloaded, if_true]

/-! ### Run -/

/-- An enabled `run()` is a step and the rest of the run. -/
theorem State.runFor_succ {s u : State} (he : s.stepEnabled = true) (h : step s = .next u) (fuel : Nat) :
    s.runFor (fuel + 1) = u.runFor fuel := by
  simp only [State.runFor, he, h, if_true]

/-- A number of steps is a step and the rest of them. -/
theorem State.stepTimes_succ {s u : State} (h : step s = .next u) (k : Nat) : s.stepTimes (k + 1) = u.stepTimes k := by
  simp only [State.stepTimes, h]

/-- What `run()` returns is reached by steps, and no step is enabled there. -/
theorem State.stepTimes_of_runFor {fuel : Nat} {s t : State} (h : s.runFor fuel = some t) :
    t.stepEnabled = false ∧ ∃ k ≤ fuel, s.stepTimes k = some t := by
  induction fuel generalizing s with
  | zero =>
    cases he : s.stepEnabled with
    | true => simp [State.runFor, he] at h
    | false =>
      cases (State.runFor_of_not_enabled he 0).symm.trans h
      exact ⟨he, 0, le_rfl, rfl⟩
  | succ fuel ih =>
    cases he : s.stepEnabled with
    | true =>
      obtain ⟨u, hu⟩ := step_next s
      obtain ⟨ht, k, hk, hsteps⟩ := ih ((State.runFor_succ he hu fuel).symm.trans h)
      exact ⟨ht, k + 1, Nat.succ_le_succ hk, (State.stepTimes_succ hu k).trans hsteps⟩
    | false =>
      cases (State.runFor_of_not_enabled he _).symm.trans h
      exact ⟨he, 0, Nat.zero_le _, rfl⟩

/-- A state that steps reach and in which none is enabled is what `run()` returns, with as many steps for a bound. -/
theorem State.runFor_of_stepTimes {k : Nat} {s t : State} (h : s.stepTimes k = some t) (ht : t.stepEnabled = false) :
    s.runFor k = some t := by
  induction k generalizing s with
  | zero => cases h; exact State.runFor_of_not_enabled ht 0
  | succ k ih =>
    cases he : s.stepEnabled with
    | true =>
      obtain ⟨u, hu⟩ := step_next s
      exact (State.runFor_succ he hu k).trans (ih ((State.stepTimes_succ hu k).symm.trans h))
    | false =>
      cases (State.stepTimes_of_step_self (step_of_not_enabled he) (k + 1)).symm.trans h
      exact State.runFor_of_not_enabled he _

/-- Settles O11: both directions by induction on the number of steps. -/
theorem runIsRepeatedSteps : Obligations.RunIsRepeatedSteps :=
  ⟨fun _ _ _ => State.stepTimes_of_runFor, fun _ _ _ => State.runFor_of_stepTimes⟩

/-! ### Inspect -/

/-- Canonical memories that read alike at the 256 addresses inspected are equal. -/
theorem Memory.eq_of_inspected {m n : Memory} (hm : m.wf = true) (hn : n.wf = true)
    (h : (List.range memSize).map (fun a => m.readAt a) = (List.range memSize).map fun a => n.readAt a) : m = n := by
  refine Memory.wfFrom_ext hm hn fun a => ?_
  rcases Nat.lt_or_ge a memSize with ha | ha
  · exact List.map_inj_left.mp h a (List.mem_range.mpr ha)
  · rw [Memory.readAt_above hm ha, Memory.readAt_above hn ha]

/-- Settles O12: each field is inspected, put out or a parameter; the memory is inspected cell by cell. -/
theorem inspectionShowsAllState : Obligations.InspectionShowsAllState := by
  intro s t hs ht hinspect houtput hconfig
  cases s
  cases t
  simp only [State.inspect, Inspection.mk.injEq] at hinspect
  obtain ⟨hregs, hpc, hfl, hmem, hrun, hrecord, hloaded⟩ := hinspect
  simp only [State.mk.injEq]
  exact ⟨hconfig, Vector.toList_inj.mp hregs, hpc, hfl, Memory.eq_of_inspected hs ht hmem, hrun, hrecord, houtput,
    hloaded⟩

/-! ### The program text -/

/-- A program line holds eight binary digits. -/
theorem mem_programLine {b : Byte} {c : Char} (h : c ∈ programLine b) : c = '0' ∨ c = '1' := by
  obtain ⟨k, -, rfl⟩ := List.mem_map.mp h
  split
  · exact .inr rfl
  · exact .inl rfl

/-- A line without white space or a comment sign is its own content. -/
theorem stripLine_eq_self {l : List Char} (hblank : ∀ c ∈ l, c.isWhitespace = false) (hcomment : ∀ c ∈ l, c ≠ '#') :
    stripLine l = l := by
  have htake : l.takeWhile (· ≠ '#') = l := List.takeWhile_eq_self_iff.mpr fun c hc => by simp [hcomment c hc]
  rw [stripLine, htake]
  exact trim_eq_self (fun c hc => hblank c (List.mem_of_mem_head? hc)) fun c hc => hblank c (List.mem_of_getLast? hc)

/-- A program line is its own content. -/
theorem stripLine_programLine (b : Byte) : stripLine (programLine b) = programLine b := by
  refine stripLine_eq_self (fun c hc => ?_) (fun c hc => ?_)
  · rcases mem_programLine hc with rfl | rfl <;> decide
  · rcases mem_programLine hc with rfl | rfl <;> decide

/-- The digits of the `n` low bits, the highest first, are read as their value. -/
theorem binaryValue_bits (b : Byte) (n acc : Nat) :
    binaryValue acc ((List.range n).reverse.map fun k => if b.getLsbD k then '1' else '0') =
      some (acc * 2 ^ n + b.toNat % 2 ^ n) := by
  induction n generalizing acc with
  | zero => simp [binaryValue, Nat.mod_one]
  | succ n ih =>
    have hdigit : binaryDigit (if b.getLsbD n then '1' else '0') = some (b.toNat.testBit n).toNat := by
      cases h : b.getLsbD n <;> simp_all [binaryDigit, BitVec.getLsbD]
    rw [List.range_succ, List.reverse_append, List.reverse_singleton, List.singleton_append, List.map_cons, binaryValue,
      hdigit, Option.bind_some, ih, Nat.mod_pow_succ, Nat.toNat_testBit]
    congr 1
    ring

/-- A program line gives the byte it was written for. -/
theorem lineByte_programLine (b : Byte) : lineByte (programLine b) = .ok b := by
  have hvalue : binaryValue 0 (programLine b) = some b.toNat := by
    have h := binaryValue_bits b 8 0
    rwa [Nat.zero_mul, Nat.zero_add, Nat.mod_eq_of_lt b.isLt] at h
  have hlength : (programLine b).length = 8 := rfl
  simp only [lineByte, hlength, hvalue, if_true, BitVec.ofNat_toNat, BitVec.setWidth_eq]

/-- A text that begins with a line is cut after it. -/
theorem splitLines_append_newline {l : List Char} (h : ∀ c ∈ l, c ≠ '\n') (rest : List Char) :
    splitLines (l ++ '\n' :: rest) = l :: splitLines rest := by
  induction l with
  | nil => simp [splitLines]
  | cons c l ih =>
    have hc : c ≠ '\n' := h c List.mem_cons_self
    have hl := ih fun d hd => h d (List.mem_cons_of_mem _ hd)
    simp only [List.cons_append, splitLines, hc, hl, if_false]

/-- The lines of a program text give its bytes; after the last line end stands an empty line. -/
theorem linesBytes_splitLines_programText (bytes : List Byte) :
    linesBytes (splitLines (programText bytes)) = .ok bytes := by
  induction bytes with
  | nil => rfl
  | cons b bytes ih =>
    have hline : ∀ c ∈ programLine b, c ≠ '\n' := fun c hc => by rcases mem_programLine hc with rfl | rfl <;> decide
    have hne : programLine b ≠ [] := List.cons_ne_nil _ _
    rw [programText, splitLines_append_newline hline, linesBytes, stripLine_programLine, if_neg hne,
      lineByte_programLine, ih]
    rfl

/-! ### Malformed program lines -/

/-- Digits among which one is not binary have no value. -/
theorem binaryValue_eq_none {l : List Char} (acc : Nat) (h : ∃ c ∈ l, c ≠ '0' ∧ c ≠ '1') :
    binaryValue acc l = none := by
  induction l generalizing acc with
  | nil => obtain ⟨c, hc, -⟩ := h; cases hc
  | cons d l ih =>
    obtain ⟨c, hc, hzero, hone⟩ := h
    rcases List.mem_cons.mp hc with rfl | hc
    · simp [binaryValue, binaryDigit, hzero, hone]
    · have htail := fun acc => ih acc ⟨c, hc, hzero, hone⟩
      simp [binaryValue, htail]

/-- A line's content that is not eight binary digits is refused. -/
theorem lineByte_of_malformed {l : List Char} (h : l.length ≠ 8 ∨ ∃ c ∈ l, c ≠ '0' ∧ c ≠ '1') :
    lineByte l = .error .malformedProgramLine := by
  unfold lineByte
  split
  · next hlength =>
    rw [binaryValue_eq_none 0 (h.resolve_left (not_not_intro hlength))]
  · rfl

/-- A line is read as a byte or refused as malformed. -/
theorem lineByte_cases (l : List Char) : (∃ b, lineByte l = .ok b) ∨ lineByte l = .error .malformedProgramLine := by
  unfold lineByte
  split
  · cases binaryValue 0 l with
    | some v => exact .inl ⟨_, rfl⟩
    | none => exact .inr rfl
  · exact .inr rfl

/-- One malformed line refuses the text, whatever stands before and after it. -/
theorem linesBytes_of_malformed {ls : List (List Char)}
    (h : ∃ l ∈ ls, stripLine l ≠ [] ∧ lineByte (stripLine l) = .error .malformedProgramLine) :
    linesBytes ls = .error .malformedProgramLine := by
  induction ls with
  | nil => obtain ⟨l, hl, -⟩ := h; cases hl
  | cons d ls ih =>
    obtain ⟨l, hl, hne, hbad⟩ := h
    rcases List.mem_cons.mp hl with rfl | hl
    · rw [linesBytes, if_neg hne, hbad]
      rfl
    · have htail := ih ⟨l, hl, hne, hbad⟩
      rw [linesBytes, htail]
      rcases lineByte_cases (stripLine d) with ⟨b, hb⟩ | hb
      · rw [hb]; exact ite_self _
      · rw [hb]; exact ite_self _

/-- Settles O10: the text is cut back into the lines of its bytes; a malformed line is refused wherever it stands. -/
theorem programTextGivesItsBytes : Obligations.ProgramTextGivesItsBytes := by
  refine ⟨fun bytes hne => ?_, fun ls ⟨l, hl, hne, hbad⟩ => ?_⟩
  · rw [programBytes, linesBytes_splitLines_programText]
    exact if_neg hne
  · exact linesBytes_of_malformed ⟨l, hl, hne, lineByte_of_malformed hbad⟩

end Sys2Proof.Machine
